-- ==== Sys2Proof/Word.lean ====
section
/-! DEFINITION. The values carried on the block's ports: the code word (R27, R60) and the command, which is the block's
eight input ports sampled together (R21, R64). -/

namespace Sys2Proof

/-- One byte of a stored code word (R40). -/
abbrev Byte := BitVec 8

/-- R27: a code word is the pair `(log, tail)`, here as the mathematical integers the rules speak of (R8): `log` is the
value of a signed 8-bit field and `tail` of an unsigned 8-bit field. Whether the integers fit those fields is
`CodeWord.wellFormed`. -/
structure CodeWord where
  log  : Int
  tail : Nat
deriving DecidableEq, Repr

/-- R21: the input ports, all sampled together as one command. -/
structure Command where
  /-- `op[3:0]`, the operation select (R68). -/
  op    : BitVec 4
  /-- `x_in[31:0]`, the integer operand, or the raw offset of `BOFE`. -/
  xIn   : BitVec 32
  /-- `a_log[7:0]`, `log` of the first code word. -/
  aLog  : BitVec 8
  /-- `a_tail[7:0]`, `tail` of the first code word, or the tail of `BOFD`. -/
  aTail : BitVec 8
  /-- `b_log[7:0]`, `log` of the second code word. -/
  bLog  : BitVec 8
  /-- `b_tail[7:0]`, `tail` of the second code word. -/
  bTail : BitVec 8
  /-- `s_neg`, true when the port is 1: the negative-side bin size. -/
  sNeg  : Bool
  /-- `s_e[4:0]`, the interval exponent. -/
  sE    : BitVec 5
deriving DecidableEq, Repr

end Sys2Proof
end

