-- ==== Sys2Proof/Syntax.lean ====
section
/-! DEFINITION. The operations of the block with their operands: one constructor per row of spec/opcode_table.json (R68,
R72, R75). Operands are the mathematical integers the rules name (R8, R65). -/

namespace Sys2Proof

/-- One command of the QI32 operation set, as the rules and the assembler syntax (R75) speak of it. -/
inductive Instr where
  /-- `ENC x` (R130): encode an integer. -/
  | enc (x : Int)
  /-- `DEC (log, tail)` (R150): decode a code word. -/
  | dec (a : CodeWord)
  /-- `CLS x` (R97): classify an integer. -/
  | cls (x : Int)
  /-- `BOFE neg, e, raw` (R114): bin offset, encode direction. -/
  | bofe (neg : Bool) (e raw : Nat)
  /-- `BOFD neg, e, tail` (R115): bin offset, decode direction. -/
  | bofd (neg : Bool) (e tail : Nat)
  /-- `CMPLT a, b` (R171). -/
  | cmplt (a b : CodeWord)
  /-- `CMPLE a, b` (R172). -/
  | cmple (a b : CodeWord)
  /-- `CMPGT a, b` (R173). -/
  | cmpgt (a b : CodeWord)
  /-- `CMPGE a, b` (R174). -/
  | cmpge (a b : CodeWord)
  /-- The reserved op code 0x0 (R72). -/
  | reserved0
  /-- The reserved op code 0x6 (R72). -/
  | reserved6
  /-- The reserved op code 0x7 (R72). -/
  | reserved7
  /-- The reserved op code 0xC (R72). -/
  | reservedC
  /-- The reserved op code 0xD (R72). -/
  | reservedD
  /-- The reserved op code 0xE (R72). -/
  | reservedE
  /-- The reserved op code 0xF (R72). -/
  | reservedF
deriving DecidableEq, Repr

end Sys2Proof
end

