-- ==== Sys2Proof/WellFormed.lean ====
section
/-! DEFINITION. When an operation's operands are values its ports can carry (R21, R65). A command on the ports always
decodes to a well-formed operation; no bit pattern of an operand port is illegal (R71, D23). -/

namespace Sys2Proof

/-- R21: the integer operand of `ENC` and `CLS` is a signed 32-bit value. -/
abbrev IsInt32 (x : Int) : Prop := -2 ^ 31 ≤ x ∧ x < 2 ^ 31

/-- R21, R27: `log` is a signed and `tail` an unsigned 8-bit value. All 65536 such pairs are allowed, canonical or not
(R62). -/
abbrev CodeWord.WellFormed (w : CodeWord) : Prop := -128 ≤ w.log ∧ w.log ≤ 127 ∧ w.tail ≤ 255

/-- R21: the ranges of the operand ports, for each operation. -/
def Instr.wellFormed : Instr → Bool
  | .enc x => decide (IsInt32 x)
  | .dec a => decide a.WellFormed
  | .cls x => decide (IsInt32 x)
  | .bofe _ e raw => decide (e ≤ 31 ∧ raw < 2 ^ 32)
  | .bofd _ e tail => decide (e ≤ 31 ∧ tail ≤ 255)
  | .cmplt a b => decide (a.WellFormed ∧ b.WellFormed)
  | .cmple a b => decide (a.WellFormed ∧ b.WellFormed)
  | .cmpgt a b => decide (a.WellFormed ∧ b.WellFormed)
  | .cmpge a b => decide (a.WellFormed ∧ b.WellFormed)
  | .reserved0 => true
  | .reserved6 => true
  | .reserved7 => true
  | .reservedC => true
  | .reservedD => true
  | .reservedE => true
  | .reservedF => true

end Sys2Proof
end

