-- ==== Sys2Proof/Decode.lean ====
section
/-! DEFINITION. From ports to operations and back: operand assembly (R65), the op code assignment (R68, R69, R72), the
encoder written from the same table, and the flat image of a command that the host's table words are read through (log 8). -/

namespace Sys2Proof

/-! ## Integer readings of bit vectors (R8, R9) -/

/-- R8 `uint(v)`: the unsigned value. -/
abbrev uint {w : Nat} (v : BitVec w) : Nat := v.toNat

/-- R8 `sint(v)`: the two's-complement value (D6, G1). -/
abbrev sint {w : Nat} (v : BitVec w) : Int := v.toInt

/-- R9 `sext_N(v)`: the N-bit two's-complement vector of `v`. -/
abbrev sext (w : Nat) (v : Int) : BitVec w := BitVec.ofInt w v

/-- R9 `zext_N(v)`: the N-bit unsigned vector of `v`. -/
abbrev zext (w : Nat) (v : Nat) : BitVec w := BitVec.ofNat w v

/-! ## Operand assembly (R65) -/

/-- R65: the first code word of a command. -/
def Command.wordA (c : Command) : CodeWord := ⟨sint c.aLog, uint c.aTail⟩

/-- R65: the second code word of a command. -/
def Command.wordB (c : Command) : CodeWord := ⟨sint c.bLog, uint c.bTail⟩

/-! ## Decoding -/

/-- R68: the operation is selected by `op[3:0]` alone; every one of the sixteen values is an operation or a reserved op
code (R72), so decoding a command is total. The last arm is op code 0xF: `op` has four bits. -/
def decode (c : Command) : Instr :=
  match c.op.toNat with
  | 0x0 => .reserved0
  | 0x1 => .enc (sint c.xIn)
  | 0x2 => .dec c.wordA
  | 0x3 => .cls (sint c.xIn)
  | 0x4 => .bofe c.sNeg (uint c.sE) (uint c.xIn)
  | 0x5 => .bofd c.sNeg (uint c.sE) (uint c.aTail)
  | 0x6 => .reserved6
  | 0x7 => .reserved7
  | 0x8 => .cmplt c.wordA c.wordB
  | 0x9 => .cmple c.wordA c.wordB
  | 0xA => .cmpgt c.wordA c.wordB
  | 0xB => .cmpge c.wordA c.wordB
  | 0xC => .reservedC
  | 0xD => .reservedD
  | 0xE => .reservedE
  | _   => .reservedF

/-! ## Encoding -/

/-- The command with every port at 0. Its op code is reserved: D3 keeps 0x0 illegal so that an undriven command is not
mistaken for an operation. -/
def Command.idle : Command :=
  { op := 0, xIn := 0, aLog := 0, aTail := 0, bLog := 0, bTail := 0, sNeg := false, sE := 0 }

/-- A command of format `X` (R64). Ports a format does not read are don't-care (R71); the encoder drives 0 on them (log 9). -/
def Command.formatX (op : BitVec 4) (x : Int) : Command := { Command.idle with op := op, xIn := sext 32 x }

/-- A command of format `Q` (R64). -/
def Command.formatQ (op : BitVec 4) (a : CodeWord) : Command :=
  { Command.idle with op := op, aLog := sext 8 a.log, aTail := zext 8 a.tail }

/-- A command of format `QQ` (R64). -/
def Command.formatQQ (op : BitVec 4) (a b : CodeWord) : Command :=
  { Command.idle with
    op := op, aLog := sext 8 a.log, aTail := zext 8 a.tail, bLog := sext 8 b.log, bTail := zext 8 b.tail }

/-- A command of format `SE` (R64). -/
def Command.formatSE (op : BitVec 4) (neg : Bool) (e raw : Nat) : Command :=
  { Command.idle with op := op, sNeg := neg, sE := zext 5 e, xIn := zext 32 raw }

/-- A command of format `SD` (R64). -/
def Command.formatSD (op : BitVec 4) (neg : Bool) (e tail : Nat) : Command :=
  { Command.idle with op := op, sNeg := neg, sE := zext 5 e, aTail := zext 8 tail }

/-- R68: the command that selects an operation and carries its operands. -/
def encode : Instr → Command
  | .enc x => Command.formatX 0x1 x
  | .dec a => Command.formatQ 0x2 a
  | .cls x => Command.formatX 0x3 x
  | .bofe neg e raw => Command.formatSE 0x4 neg e raw
  | .bofd neg e tail => Command.formatSD 0x5 neg e tail
  | .cmplt a b => Command.formatQQ 0x8 a b
  | .cmple a b => Command.formatQQ 0x9 a b
  | .cmpgt a b => Command.formatQQ 0xA a b
  | .cmpge a b => Command.formatQQ 0xB a b
  | .reserved0 => { Command.idle with op := 0x0 }
  | .reserved6 => { Command.idle with op := 0x6 }
  | .reserved7 => { Command.idle with op := 0x7 }
  | .reservedC => { Command.idle with op := 0xC }
  | .reservedD => { Command.idle with op := 0xD }
  | .reservedE => { Command.idle with op := 0xE }
  | .reservedF => { Command.idle with op := 0xF }

/-! ## The flat image of a command

The spec gives a command no image in memory: its ports travel separately. The host's table words number the bits of `op`
as bits 3 .. 0 of a word, so the model lays the other ports above them in the order of R21's table: `x_in` at 4, `a_log`
at 36, `a_tail` at 44, `b_log` at 52, `b_tail` at 60, `s_neg` at 68, `s_e` at 69; 74 bits. DESIGN CHOICE (log 8), safe:
no operation and no step of a host's own commands reads it. -/

/-- The command whose image is `w`; bits above the image are not looked at. -/
def Command.ofWord (w : Nat) : Command :=
  { op := BitVec.ofNat 4 w
    xIn := BitVec.ofNat 32 (w / 2 ^ 4)
    aLog := BitVec.ofNat 8 (w / 2 ^ 36)
    aTail := BitVec.ofNat 8 (w / 2 ^ 44)
    bLog := BitVec.ofNat 8 (w / 2 ^ 52)
    bTail := BitVec.ofNat 8 (w / 2 ^ 60)
    sNeg := w / 2 ^ 68 % 2 == 1
    sE := BitVec.ofNat 5 (w / 2 ^ 69) }

/-- The image of a command. -/
def Command.toWord (c : Command) : Nat :=
  c.op.toNat + c.xIn.toNat * 2 ^ 4 + c.aLog.toNat * 2 ^ 36 + c.aTail.toNat * 2 ^ 44 + c.bLog.toNat * 2 ^ 52
    + c.bTail.toNat * 2 ^ 60 + c.sNeg.toNat * 2 ^ 68 + c.sE.toNat * 2 ^ 69

/-- Why a word is not the image of a command. -/
inductive DecodeError where
  /-- It has a bit above the 74 bits of the input ports. -/
  | wordTooWide
deriving DecidableEq, Repr

/-- Decode an image; total, rejecting by name what is not one. -/
def decodeWord (w : Nat) : Except DecodeError Instr :=
  if w < 2 ^ 74 then .ok (decode (Command.ofWord w)) else .error .wordTooWide

/-- The image of an operation's command. -/
def encodeWord (i : Instr) : Nat := (encode i).toWord

/-- The instruction decoded from the low `nbits` bits of `w`, as spec/opcode_table.json numbers them; the bits above are 0. -/
def decodeTableWord (nbits w : Nat) : Option Instr :=
  match decodeWord (w % 2 ^ nbits) with
  | .ok i => some i
  | .error _ => none

end Sys2Proof
end

