-- ==== Sys2Proof/Config.lean ====
section
/-! DEFINITION. The implementation parameters R6 fixes, and the free values: what an output port carries when the
operation answered does not write it, or when the response is a fault (R29, R66, R201). -/

namespace Sys2Proof

/-- R6 `BIN_THRESHOLD`: `bin_size = 1` when `interval` is below it. -/
abbrev Config.binThreshold : Nat := 512

/-- R6 `POS_SHIFT`: `bin_size = interval >> 8` on the positive side. -/
abbrev Config.posShift : Nat := 8

/-- R6 `NEG_SHIFT`: `bin_size = interval >> 9` on the negative side. -/
abbrev Config.negShift : Nat := 9

/-- R6 `TAIL_OVERFLOW`: a quotient wraps modulo 256 (D8). -/
abbrev Config.tailModulus : Nat := 256

/-- R6 `LOG_MIN`: the least `log` the decoder accepts (D9). -/
abbrev Config.logMin : Int := -31

/-- R6 `LOG_MAX`: the greatest `log` the decoder accepts (D9). -/
abbrev Config.logMax : Int := 30

/-! Free values, one function per output port other than `status`. R29: an unwritten field is any value of its width, and
no claim may depend on it. Each is applied to the count of responses given so far and to the command on the input ports,
so that neither two responses in one run nor the answers to two different commands are forced to agree there.
DESIGN CHOICE (the form, log 5); safe: no body, so nothing can be proved of the value. -/

/-- The unspecified value of `q_log`. -/
opaque Config.freeQLog : Nat → Command → BitVec 8
/-- The unspecified value of `q_tail`. -/
opaque Config.freeQTail : Nat → Command → BitVec 8
/-- The unspecified value of `y_out`. -/
opaque Config.freeYOut : Nat → Command → BitVec 32
/-- The unspecified value of `flag`. -/
opaque Config.freeFlag : Nat → Command → Bool
/-- The unspecified value of `c_neg`. -/
opaque Config.freeCNeg : Nat → Command → Bool
/-- The unspecified value of `c_exact`. -/
opaque Config.freeCExact : Nat → Command → Bool
/-- The unspecified value of `c_abs_log`. -/
opaque Config.freeCAbsLog : Nat → Command → BitVec 5
/-- The unspecified value of `b_shift`. -/
opaque Config.freeBShift : Nat → Command → BitVec 5

end Sys2Proof
end

