-- ==== Sys2Proof/Machine/State.lean ====
section
/-! DEFINITION. What a step reads and writes. The block itself stores nothing (R20); State holds its input and output ports,
the commands the host has yet to issue (R23), and the model's counter for unspecified values (log 1). -/

namespace Sys2Proof.Machine

/-- R200: the three fault codes a response's `status` can carry; `OK` is the absence of one. Raising one does not stop the
machine: the next command is answered like any other (R209). -/
inductive FaultCode where
  /-- The op code selects no operation (R202). -/
  | illegalOp
  /-- `CLS` with `x = 0` (R203). -/
  | zeroOperand
  /-- `DEC` with `log` outside -31 .. 30 (R204). -/
  | logRange
deriving DecidableEq, Repr

/-- R29: a response, one constructor per response format (R66) carrying only the written fields, plus one for a fault, which
carries the code and no result (R201). -/
inductive Response where
  /-- `ENC` writes `q_log` and `q_tail`. -/
  | enc (qLog qTail : BitVec 8)
  /-- `DEC` writes `y_out`. -/
  | dec (yOut : BitVec 32)
  /-- `CLS` writes `q_log`, `y_out`, `c_neg`, `c_exact` and `c_abs_log`. -/
  | cls (qLog : BitVec 8) (yOut : BitVec 32) (cNeg cExact : Bool) (cAbsLog : BitVec 5)
  /-- `BOFE` writes `b_shift` and `q_tail`. -/
  | bofe (bShift : BitVec 5) (qTail : BitVec 8)
  /-- `BOFD` writes `b_shift` and `y_out`. -/
  | bofd (bShift : BitVec 5) (yOut : BitVec 32)
  /-- `CMPLT`, `CMPLE`, `CMPGT`, `CMPGE` write `flag`. -/
  | cmp (flag : Bool)
  /-- A fault writes `status` only. -/
  | fault (code : FaultCode)
deriving DecidableEq, Repr

/-- R22: the output ports. -/
structure OutPorts where
  /-- `status[1:0]` (R200). -/
  status  : BitVec 2
  /-- `q_log[7:0]`, result `log` field of `ENC` and `CLS`. -/
  qLog    : BitVec 8
  /-- `q_tail[7:0]`, result `tail` field of `ENC` and `BOFE`. -/
  qTail   : BitVec 8
  /-- `y_out[31:0]`, the decoded integer, the interval, or the scaled offset. -/
  yOut    : BitVec 32
  /-- `flag`, the comparator's verdict. -/
  flag    : Bool
  /-- `c_neg`, true when `x < 0`. -/
  cNeg    : Bool
  /-- `c_exact`, true when the exact-power branch is taken. -/
  cExact  : Bool
  /-- `c_abs_log[4:0]`. -/
  cAbsLog : BitVec 5
  /-- `b_shift[4:0]`, the bin shift. -/
  bShift  : BitVec 5
deriving DecidableEq, Repr

/-- The block's ports, and what the host is about to do to them. -/
structure State where
  /-- The input ports: the command the block is answering (R21). -/
  inp     : Command
  /-- The output ports: the response last produced (R22). -/
  out     : OutPorts
  /-- The commands the host has yet to issue, in order (R23). -/
  pending : List Command
  /-- The model's own field: how many responses have drawn unspecified values (R29, log 5). -/
  draws   : Nat
deriving DecidableEq, Repr

/-- A step never stops with a fault: every fault the spec names is a status code in a response after which the block answers
on (R208, R209), so this type has no constructor (log 7). Safe: nothing raises it. -/
inductive Fault where
deriving DecidableEq, Repr

/-- Why a step could have no meaning. -/
inductive Refusal where
  /-- An arm of `exec` without a meaning, by the table's mnemonic. Raised by no arm (log 7); it would be safe. -/
  | notModelled (mnemonic : String)
deriving DecidableEq, Repr

/-- Power-up. The spec gives the block no state and no reset input (R28, R230); its outputs hold the response to whatever is
on its inputs from power-up on. The host has driven nothing yet: input ports 0 (DESIGN CHOICE, log 3), so the response is
that of op code 0x0, `status = ILLEGAL_OP` and every other field unspecified (R29, R72; log 4). -/
def State.reset : State :=
  let undriven : Command :=
    { op := 0, xIn := 0, aLog := 0, aTail := 0, bLog := 0, bTail := 0, sNeg := false, sE := 0 }
  { inp := undriven
    out :=
      { status := 1
        qLog := Config.freeQLog 0 undriven
        qTail := Config.freeQTail 0 undriven
        yOut := Config.freeYOut 0 undriven
        flag := Config.freeFlag 0 undriven
        cNeg := Config.freeCNeg 0 undriven
        cExact := Config.freeCExact 0 undriven
        cAbsLog := Config.freeCAbsLog 0 undriven
        bShift := Config.freeBShift 0 undriven }
    pending := []
    draws := 1 }

end Sys2Proof.Machine
end

