-- ==== Sys2Proof/Machine/Ops.lean ====
section
/-! DEFINITION. The operations every meaning shares: driving the output ports with a response, raising a fault, and the host
presenting its next command. -/

namespace Sys2Proof.Machine

/-- R200: status code 0, `OK`. -/
def okCode : BitVec 2 := 0

/-- R200: the status code of a fault. -/
def FaultCode.code : FaultCode → BitVec 2
  | .illegalOp => 1
  | .zeroOperand => 2
  | .logRange => 3

/-- R22: the status a response carries. -/
def Response.status : Response → BitVec 2
  | .fault code => code.code
  | _ => okCode

/-- R29: output ports of which only `status` is written; every other field is a free value, drawn for response number `n`,
the answer to command `c` (log 5). -/
def freePorts (status : BitVec 2) (n : Nat) (c : Command) : OutPorts :=
  { status := status
    qLog := Config.freeQLog n c
    qTail := Config.freeQTail n c
    yOut := Config.freeYOut n c
    flag := Config.freeFlag n c
    cNeg := Config.freeCNeg n c
    cExact := Config.freeCExact n c
    cAbsLog := Config.freeCAbsLog n c
    bShift := Config.freeBShift n c }

/-- R66: the output ports a response drives, its own fields written and all others unspecified. -/
def Response.drive (r : Response) (n : Nat) (c : Command) : OutPorts :=
  match r with
  | .enc l t => { freePorts okCode n c with qLog := l, qTail := t }
  | .dec y => { freePorts okCode n c with yOut := y }
  | .cls l y neg exact a =>
    { freePorts okCode n c with qLog := l, yOut := y, cNeg := neg, cExact := exact, cAbsLog := a }
  | .bofe sh t => { freePorts okCode n c with bShift := sh, qTail := t }
  | .bofd sh y => { freePorts okCode n c with bShift := sh, yOut := y }
  | .cmp f => { freePorts okCode n c with flag := f }
  | .fault code => freePorts code.code n c

/-- Whether output ports hold a response: `status` and the fields the response writes (R66) agree; the others may be
anything (R29). -/
def OutPorts.holds (o : OutPorts) : Response → Bool
  | .enc l t => decide (o.status = okCode ∧ o.qLog = l ∧ o.qTail = t)
  | .dec y => decide (o.status = okCode ∧ o.yOut = y)
  | .cls l y neg exact a =>
    decide (o.status = okCode ∧ o.qLog = l ∧ o.yOut = y ∧ o.cNeg = neg ∧ o.cExact = exact ∧ o.cAbsLog = a)
  | .bofe sh t => decide (o.status = okCode ∧ o.bShift = sh ∧ o.qTail = t)
  | .bofd sh y => decide (o.status = okCode ∧ o.bShift = sh ∧ o.yOut = y)
  | .cmp f => decide (o.status = okCode ∧ o.flag = f)
  | .fault code => decide (o.status = code.code)

/-- The output ports driven with a response to the command on the input ports; nothing else changes, because there is
nothing else (R20, R201). -/
def State.respond (r : Response) (s : State) : State :=
  { s with out := r.drive s.draws s.inp, draws := s.draws + 1 }

/-- R11: answer the command on the input ports. -/
def answer (r : Response) (s : State) : Host.Outcome State Fault Refusal := .next (s.respond r)

/-- R201, R208: raise a fault. The response's `status` takes the code, every other response field is unspecified, nothing is
saved, no mode changes and control goes nowhere. There is no return from a fault (R209): the next command is answered like
any other. -/
def raise (code : FaultCode) (s : State) : Host.Outcome State Fault Refusal := answer (.fault code) s

/-- R23, R236: the host puts its next command on the input ports. When it has none left the ports keep the command they
hold, whose response the block goes on giving (R230; log 2). -/
def State.present (s : State) : State :=
  match s.pending with
  | [] => s
  | c :: rest => { s with inp := c, pending := rest }

end Sys2Proof.Machine
end

