-- ==== Sys2Proof/Machine/Operands.lean ====
section
/-! DEFINITION. The primitive functions of the rules (R9), over the unbounded integers (R8). Operand forms are whole ports
(R65) and are assembled in Sys2Proof/Decode.lean. -/

namespace Sys2Proof.Machine

/-- R9 `sgn`, with `sgn(0) = 0` (R152, D10). -/
def sgn (v : Int) : Int := if v < 0 then -1 else if v = 0 then 0 else 1

/-- R9 `abs`, exact: the magnitude of `-2^31` is `2^31` (R92, D7). -/
def magnitude (v : Int) : Nat := v.natAbs

/-- R9 `floor_log2`, the position of the highest set bit; the rules give it no value at 0 and no operation asks for one
(R91; log 12). -/
def floorLog2 (m : Nat) : Nat := Nat.log2 m

end Sys2Proof.Machine
end

