-- ==== Sys2Proof/Machine/Flags.lean ====
section
/-! DEFINITION. The one-bit results of a response (R24): `c_neg` and `c_exact` of the classifier, `flag` of the comparator.
None of them outlives its response. -/

namespace Sys2Proof.Machine

/-- R90: `neg = (x < 0)`. -/
def negFlag (x : Int) : Bool := decide (x < 0)

/-- R95: `exact = (I = m)`. -/
def exactFlag (interval mag : Nat) : Bool := decide (interval = mag)

/-- R170: the comparison key of a code word, defined for every bit pattern. -/
def key (w : CodeWord) : Int × Int := (w.log, sgn w.log * w.tail)

/-- R170: keys compared lexicographically, strictly. -/
def keyLt (a b : CodeWord) : Bool :=
  decide ((key a).1 < (key b).1 ∨ (key a).1 = (key b).1 ∧ (key a).2 < (key b).2)

/-- R172: `key(a) <= key(b)` means `key(a) < key(b)` or the two keys are equal pairs. -/
def keyLe (a b : CodeWord) : Bool := keyLt a b || decide (key a = key b)

end Sys2Proof.Machine
end

