-- ==== Sys2Proof/Machine/Comparator.lean ====
section
/-! DEFINITION. The comparator unit: `CMPLT`, `CMPLE`, `CMPGT`, `CMPGE` (spec/44_comparator.md). Every pair of bit patterns is
accepted (R178). -/

namespace Sys2Proof.Machine

/-- R171 `CMPLT`: `key(a) < key(b)`. -/
def execCmplt (a b : CodeWord) (s : State) : Host.Outcome State Fault Refusal := answer (.cmp (keyLt a b)) s

/-- R172 `CMPLE`: `key(a) <= key(b)`. -/
def execCmple (a b : CodeWord) (s : State) : Host.Outcome State Fault Refusal := answer (.cmp (keyLe a b)) s

/-- R173 `CMPGT`: `key(b) < key(a)`. -/
def execCmpgt (a b : CodeWord) (s : State) : Host.Outcome State Fault Refusal := answer (.cmp (keyLt b a)) s

/-- R174 `CMPGE`: `key(b) <= key(a)`. -/
def execCmpge (a b : CodeWord) (s : State) : Host.Outcome State Fault Refusal := answer (.cmp (keyLe b a)) s

end Sys2Proof.Machine
end

