-- ==== Sys2Proof/Machine/BinOffset.lean ====
section
/-! DEFINITION. The bin_offset_calculator unit, `BOFE` and `BOFD` (spec/41_bin_offset.md). -/

namespace Sys2Proof.Machine

/-- R110: the bin shift, from the interval `2^e` and the parameters of R6: `bin_size = 1` below the threshold, else
`interval >> 8` on the positive side and `interval >> 9` on the negative. -/
def sh (neg : Bool) (e : Nat) : Nat :=
  if 2 ^ e < Config.binThreshold then 0 else if neg then e - Config.negShift else e - Config.posShift

/-- R110: `bin_size = 2^sh`. -/
def binSize (neg : Bool) (e : Nat) : Nat := 2 ^ sh neg e

/-- R112: `(raw >> sh) mod 256`; the wrap is silent (D8). -/
def scaleDown (neg : Bool) (e raw : Nat) : Nat := (raw >>> sh neg e) % Config.tailModulus

/-- R113: `tail << sh`, which is `tail * bin_size`. -/
def scaleUp (neg : Bool) (e tail : Nat) : Nat := tail <<< sh neg e

/-- R114: the response of `BOFE`. -/
def bofeResponse (neg : Bool) (e raw : Nat) : Response := .bofe (zext 5 (sh neg e)) (zext 8 (scaleDown neg e raw))

/-- R115: the response of `BOFD`. -/
def bofdResponse (neg : Bool) (e tail : Nat) : Response := .bofd (zext 5 (sh neg e)) (zext 32 (scaleUp neg e tail))

/-- R114 `BOFE`. Every `(neg, e, raw)` is accepted (D23). -/
def execBofe (neg : Bool) (e raw : Nat) (s : State) : Host.Outcome State Fault Refusal :=
  answer (bofeResponse neg e raw) s

/-- R115 `BOFD`. Every `(neg, e, tail)` is accepted (D23). -/
def execBofd (neg : Bool) (e tail : Nat) (s : State) : Host.Outcome State Fault Refusal :=
  answer (bofdResponse neg e tail) s

end Sys2Proof.Machine
end

