-- ==== Sys2Proof/Machine/Decoder.lean ====
section
/-! DEFINITION. The decoder unit and `DEC` (spec/43_decoder.md). -/

namespace Sys2Proof.Machine

/-- R151: the `log` values the decoder accepts, -31 .. 30. -/
def logInRange (log : Int) : Bool := decide (Config.logMin ≤ log ∧ log ≤ Config.logMax)

/-- R150: the integer a code word stands for. No quirk: the interval is `2^|log|`, and `sgn(0) = 0` (R152). Non-canonical
code words are decoded by the same formula (R154). -/
def decodeInt (w : CodeWord) : Int :=
  sgn w.log * 2 ^ w.log.natAbs + (scaleUp (decide (w.log < 0)) w.log.natAbs w.tail : Nat)

/-- R150: the response of `DEC` once `log` is known to be in range. -/
def decResponse (w : CodeWord) : Response := .dec (sext 32 (decodeInt w))

/-- R150 `DEC`. -/
def execDec (w : CodeWord) (s : State) : Host.Outcome State Fault Refusal :=
  if logInRange w.log then answer (decResponse w) s else raise .logRange s

end Sys2Proof.Machine
end

