-- ==== Sys2Proof/Machine/Classifier.lean ====
section
/-! DEFINITION. The log_magnitude_classifier unit and `CLS` (spec/40_classifier.md). -/

namespace Sys2Proof.Machine

/-- R90: the classifier's fields for a non-zero `x`. -/
structure Classification where
  /-- `neg = (x < 0)`. -/
  neg      : Bool
  /-- `m = abs(x)` (R92). -/
  mag      : Nat
  /-- `a = floor_log2(m)` (R93). -/
  absLog   : Nat
  /-- `I`, with its quirk (R94). -/
  interval : Nat
  /-- `exact = (I = m)` (R95). -/
  exact    : Bool
  /-- `L`, the `log` field the encoder will emit (R96). -/
  log      : Int
deriving DecidableEq, Repr

/-- R90, R91: the unit's output. When `zero` is set the other fields have no value (log 11). -/
inductive Classified where
  | zero
  | nonzero (c : Classification)
deriving DecidableEq, Repr

/-- R94: `I = 2^a`, except that `I = 0` when `a = 0`. -/
def classInterval (a : Nat) : Nat := if a = 0 then 0 else 2 ^ a

/-- R96: the class a non-zero `x` falls into. -/
def classLog (x : Int) (a : Nat) (exact : Bool) : Int :=
  if exact then sgn x * a else if 0 < x then a else -a - 1

/-- R90: the classifier. -/
def lmc (x : Int) : Classified :=
  if x = 0 then .zero
  else
    let m := magnitude x
    let a := floorLog2 m
    let i := classInterval a
    let exact := exactFlag i m
    .nonzero { neg := negFlag x, mag := m, absLog := a, interval := i, exact := exact, log := classLog x a exact }

/-- R97: the response of `CLS` once `x` is known not to be zero. -/
def clsResponse (c : Classification) : Response :=
  .cls (sext 8 c.log) (zext 32 c.interval) c.neg c.exact (zext 5 c.absLog)

/-- R97 `CLS`. -/
def execCls (x : Int) (s : State) : Host.Outcome State Fault Refusal :=
  match lmc x with
  | .zero => raise .zeroOperand s
  | .nonzero c => answer (clsResponse c) s

end Sys2Proof.Machine
end

