-- ==== Sys2Proof/Machine/Encoder.lean ====
section
/-! DEFINITION. The encoder unit and `ENC` (spec/42_encoder.md). -/

namespace Sys2Proof.Machine

/-- R130 step 5, R132: the raw offset `r` of a non-zero, non-exact `x` from the base of its class. It is never negative. -/
def rawOffset (x : Int) (c : Classification) : Int :=
  if 0 < x then x - c.interval else 2 ^ (-c.log).toNat + x

/-- R130: the code word of an integer. The bin size is taken with `e = abs_log` on both sides; on the negative side this is
not the interval the decoder will use (R116), and the quotient may wrap (R137). -/
def encodeInt (x : Int) : CodeWord :=
  match lmc x with
  | .zero => ⟨0, 0⟩
  | .nonzero c => if c.exact then ⟨c.log, 0⟩ else ⟨c.log, scaleDown c.neg c.absLog (rawOffset x c).toNat⟩

/-- R130: the response of `ENC`. -/
def encResponse (x : Int) : Response := .enc (sext 8 (encodeInt x).log) (zext 8 (encodeInt x).tail)

/-- R130 `ENC`. It guards zero itself and never faults (R203, R205). -/
def execEnc (x : Int) (s : State) : Host.Outcome State Fault Refusal := answer (encResponse x) s

end Sys2Proof.Machine
end

