-- ==== Sys2Proof/Machine/Reserved.lean ====
section
/-! DEFINITION. The seven reserved op codes (R72, R202): each raises `ILLEGAL_OP`, whatever the other ports hold. -/

namespace Sys2Proof.Machine

/-- R72: op code 0x0 selects no operation. -/
def execReserved0 (s : State) : Host.Outcome State Fault Refusal := raise .illegalOp s

/-- R72: op code 0x6 selects no operation. -/
def execReserved6 (s : State) : Host.Outcome State Fault Refusal := raise .illegalOp s

/-- R72: op code 0x7 selects no operation. -/
def execReserved7 (s : State) : Host.Outcome State Fault Refusal := raise .illegalOp s

/-- R72: op code 0xC selects no operation. -/
def execReservedC (s : State) : Host.Outcome State Fault Refusal := raise .illegalOp s

/-- R72: op code 0xD selects no operation. -/
def execReservedD (s : State) : Host.Outcome State Fault Refusal := raise .illegalOp s

/-- R72: op code 0xE selects no operation. -/
def execReservedE (s : State) : Host.Outcome State Fault Refusal := raise .illegalOp s

/-- R72: op code 0xF selects no operation. -/
def execReservedF (s : State) : Host.Outcome State Fault Refusal := raise .illegalOp s

end Sys2Proof.Machine
end

