-- ==== Sys2Proof/Machine/Dispatch.lean ====
section
/-! DEFINITION. One arm per operation of the block. -/

namespace Sys2Proof.Machine

def exec (i : Instr) (s : State) : Host.Outcome State Fault Refusal :=
  match i with
  | .enc x => Sys2Proof.Machine.execEnc x s
  | .dec a => Sys2Proof.Machine.execDec a s
  | .cls x => Sys2Proof.Machine.execCls x s
  | .bofe neg e raw => Sys2Proof.Machine.execBofe neg e raw s
  | .bofd neg e tail => Sys2Proof.Machine.execBofd neg e tail s
  | .cmplt a b => Sys2Proof.Machine.execCmplt a b s
  | .cmple a b => Sys2Proof.Machine.execCmple a b s
  | .cmpgt a b => Sys2Proof.Machine.execCmpgt a b s
  | .cmpge a b => Sys2Proof.Machine.execCmpge a b s
  | .reserved0 => Sys2Proof.Machine.execReserved0 s
  | .reserved6 => Sys2Proof.Machine.execReserved6 s
  | .reserved7 => Sys2Proof.Machine.execReserved7 s
  | .reservedC => Sys2Proof.Machine.execReservedC s
  | .reservedD => Sys2Proof.Machine.execReservedD s
  | .reservedE => Sys2Proof.Machine.execReservedE s
  | .reservedF => Sys2Proof.Machine.execReservedF s

end Sys2Proof.Machine
end

