-- ==== Sys2Proof/Machine/Step.lean ====
section
/-! DEFINITION. One step: the host presents its next command and the block answers it (R11, R230). -/

namespace Sys2Proof.Machine

/-- R11: one command is one step. -/
def step (s : State) : Host.Outcome State Fault Refusal := exec (decode s.present.inp) s.present

/-- `s` with one more command at the head of the host's list, where the next step takes its command from (log 8). -/
def State.withFetchWord (s : State) (nbits w : Nat) : State :=
  { s with pending := Command.ofWord (w % 2 ^ nbits) :: s.pending }

end Sys2Proof.Machine
end

