-- ==== Sys2Proof/Machine/Block.lean ====
section
/-! DEFINITION. The block as the spec's own kind of object, a function from a command to a response (R11, R20), written from
the units without `exec`. The step function is stated against it. -/

namespace Sys2Proof.Machine

/-- The response each operation's rule gives, and the fault it raises where it raises one (R200). -/
def responseOf : Instr → Response
  | .enc x => encResponse x
  | .dec a => if logInRange a.log then decResponse a else .fault .logRange
  | .cls x => match lmc x with
    | .zero => .fault .zeroOperand
    | .nonzero c => clsResponse c
  | .bofe neg e raw => bofeResponse neg e raw
  | .bofd neg e tail => bofdResponse neg e tail
  | .cmplt a b => .cmp (keyLt a b)
  | .cmple a b => .cmp (keyLe a b)
  | .cmpgt a b => .cmp (keyLt b a)
  | .cmpge a b => .cmp (keyLe b a)
  | .reserved0 => .fault .illegalOp
  | .reserved6 => .fault .illegalOp
  | .reserved7 => .fault .illegalOp
  | .reservedC => .fault .illegalOp
  | .reservedD => .fault .illegalOp
  | .reservedE => .fault .illegalOp
  | .reservedF => .fault .illegalOp

/-- R11: the block. -/
def respond (c : Command) : Response := responseOf (decode c)

/-- R23, D27: a program is a finite list of commands; it has ended when its last command has been answered. -/
def programResponses (cs : List Command) : List Response := cs.map respond

/-- D27, R201: a run in which every response has `status = OK` is finished; any other is faulted. -/
def programFinished (cs : List Command) : Bool := (programResponses cs).all fun r => decide (r.status = okCode)

end Sys2Proof.Machine
end

