-- ==== Sys2Proof/Machine/HostMacros.lean ====
section
/-! DEFINITION. The host macros over `DEC` and `ENC` (spec/45_arithmetic_host.md). They stand outside the block (R5, D12): no
op code, no port and no step belongs to them (log 13). -/

namespace Sys2Proof.Machine

/-- R191: `OP` is one of `+`, `-`, `*`. -/
inductive MacroOp where
  | add
  | sub
  | mul
deriving DecidableEq, Repr

/-- R190: an operand is a code word or a plain integer. -/
inductive MacroOperand where
  | word (w : CodeWord)
  | int (v : Int)
deriving DecidableEq, Repr

/-- Why a macro gives no result. -/
inductive MacroStop where
  /-- R191: a `DEC` reported this status. -/
  | status (code : FaultCode)
  /-- R193, U10: the exact result `y` is outside 32 bits; what a host does then is outside the spec, in either policy. -/
  | resultTooWide (y : Int)
deriving DecidableEq, Repr

/-- R190: the host's exact operation. -/
def MacroOp.apply : MacroOp → Int → Int → Int
  | .add, u, v => u + v
  | .sub, u, v => u - v
  | .mul, u, v => u * v

/-- R191: `u := p if p is an integer else (DEC p -> u)`. -/
def operandValue : MacroOperand → Except MacroStop Int
  | .int v => .ok v
  | .word w => if logInRange w.log then .ok (decodeInt w) else .error (.status .logRange)

/-- R193, U10: the exact result when it fits a 32-bit integer; outside that range the spec refuses, and nothing may be assumed
of the result, so the macro stops by name (log 18). -/
def fitResult (y : Int) : Except MacroStop Int := if IsInt32 y then .ok y else .error (.resultTooWide y)

/-- R191 `QOP.D`, policy (a): arithmetic returns the exact decoded value. -/
def qopD (op : MacroOp) (p q : MacroOperand) : Except MacroStop Int :=
  match operandValue p, operandValue q with
  | .ok u, .ok v => fitResult (op.apply u v)
  | .error e, _ => .error e
  | .ok _, .error e => .error e

/-- R191 `QOP.Q`, policy (b): arithmetic returns the re-quantized value. -/
def qopQ (op : MacroOp) (p q : MacroOperand) : Except MacroStop CodeWord :=
  match qopD op p q with
  | .ok y => .ok (encodeInt y)
  | .error e => .error e

end Sys2Proof.Machine
end

