-- ==== Sys2Proof/Machine/Layout.lean ====
section
/-! DEFINITION. How a collaborator stores code words in its own memory (R40 to R42). The block itself has no memory port
(R26, R43), so these are functions on byte lists and no part of State (log 14). -/

namespace Sys2Proof.Machine

/-- R40: two bytes, `log` at offset 0 and `tail` at offset 1. -/
def bytesOfWord (w : CodeWord) : List Byte := [sext 8 w.log, zext 8 w.tail]

/-- R40: the code word two stored bytes hold; any two bytes are some code word (R49). -/
def wordOfBytes (logByte tailByte : Byte) : CodeWord := ⟨sint logByte, uint tailByte⟩

/-- R42: an array of code words, packed. -/
def bytesOfWords (ws : List CodeWord) : List Byte := ws.flatMap bytesOfWord

/-- R42: code word `i` of an array, from byte offsets `2i` and `2i+1`; none past its end. -/
def wordAt (bytes : List Byte) (i : Nat) : Option CodeWord :=
  match bytes[2 * i]?, bytes[2 * i + 1]? with
  | some l, some t => some (wordOfBytes l t)
  | _, _ => none

end Sys2Proof.Machine
end

