-- ==== Sys2Proof/Safety.lean ====
section
/-! DEFINITION. The terms claims are stated in: what the ports show after an operation, when a state is coherent, and the
arithmetic relations the rules use. -/

namespace Sys2Proof.Machine

/-- The output ports after operation `i` has been answered in state `s`; none if the machine stopped. -/
def outputs (i : Instr) (s : State) : Option OutPorts :=
  match exec i s with
  | .next t => some t.out
  | .fault _ => none
  | .refused _ => none

/-- The comparator's verdict, when the response is OK. -/
def verdict (i : Instr) (s : State) : Option Bool :=
  match outputs i s with
  | some o => if o.status = okCode then some o.flag else none
  | none => none

/-- R230: whenever the inputs hold a command the outputs hold that command's response. -/
def Coherent (s : State) : Prop := s.out.holds (respond s.inp) = true

/-- R9 `floor_log2`, as the relation the rules define it by: `2^a <= m < 2^(a+1)`. -/
abbrev IsFloorLog2 (m a : Nat) : Prop := 2 ^ a ≤ m ∧ m < 2 ^ (a + 1)

/-- `x` is `2^k` or `-2^k` for some `k`. -/
def IsSignedPower (x : Int) : Prop := ∃ k : Nat, x.natAbs = 2 ^ k

/-- The code word on the result ports (R22). -/
def OutPorts.word (o : OutPorts) : CodeWord := ⟨sint o.qLog, uint o.qTail⟩

/-- `ENC x`, then `DEC` of the two bytes it answered, answers `y` with both statuses OK: `DEC(ENC(x)) = y` at the ports. -/
def RoundTripGives (s : State) (x y : Int) : Prop :=
  ∃ t u, exec (.enc x) s = .next t ∧ t.out.status = okCode
    ∧ exec (.dec t.out.word) t = .next u ∧ u.out.status = okCode ∧ sint u.out.yOut = y

/-- R66: two sets of output ports, both answers to a command with op code `op`, agree on `status` and, when it is OK, on
every port that operation writes. -/
def AgreeOnWritten (op : BitVec 4) (o o' : OutPorts) : Prop :=
  o.status = o'.status ∧ (o.status = okCode →
    (op = 0x1 → o.qLog = o'.qLog ∧ o.qTail = o'.qTail)
    ∧ (op = 0x2 → o.yOut = o'.yOut)
    ∧ (op = 0x3 → o.qLog = o'.qLog ∧ o.yOut = o'.yOut ∧ o.cNeg = o'.cNeg ∧ o.cExact = o'.cExact
        ∧ o.cAbsLog = o'.cAbsLog)
    ∧ (op = 0x4 → o.bShift = o'.bShift ∧ o.qTail = o'.qTail)
    ∧ (op = 0x5 → o.bShift = o'.bShift ∧ o.yOut = o'.yOut)
    ∧ (op = 0x8 ∨ op = 0x9 ∨ op = 0xA ∨ op = 0xB → o.flag = o'.flag))

/-- R72: the op codes that select no operation. -/
def ReservedOp (op : BitVec 4) : Prop :=
  op = 0x0 ∨ op = 0x6 ∨ op = 0x7 ∨ op = 0xC ∨ op = 0xD ∨ op = 0xE ∨ op = 0xF

/-- R130 step 5, R150 step 2: the bin size the source's formula gives for an interval and a side. -/
def binSizeOf (neg : Bool) (interval : Nat) : Nat :=
  if interval < 512 then 1 else if neg then interval / 2 ^ 9 else interval / 2 ^ 8

/-- R191, R193: with operand values `u` and `v`, policy (a) gives the exact result when it fits 32 bits and refuses otherwise. -/
def AnswersExactly (op : MacroOp) (p q : MacroOperand) (u v : Int) : Prop :=
  (IsInt32 (op.apply u v) → qopD op p q = .ok (op.apply u v))
  ∧ (¬ IsInt32 (op.apply u v) → qopD op p q = .error (.resultTooWide (op.apply u v)))

/-- R170 in words of its own: the second comparison when the logs are equal, by the sign of the common `log`. -/
def KeyBelow (a b : CodeWord) : Prop :=
  a.log < b.log ∨ a.log = b.log ∧ (0 < a.log ∧ a.tail < b.tail ∨ a.log < 0 ∧ b.tail < a.tail)

/-- R175: neither code word is below the other. -/
def KeyTie (a b : CodeWord) : Prop := a.log = b.log ∧ (a.log = 0 ∨ a.tail = b.tail)

end Sys2Proof.Machine
end

