-- ==== Sys2Proof/Certificates/Slice0/Obligations.lean ====
section
/-! DEFINITION. The statements about the block, from the numbered rules of spec/. Arithmetic is written out from the rules, not
called from the units, wherever a statement says what an operation answers. -/

open Sys2Proof Sys2Proof.Machine

/-! ## Operations answer what their rules say -/

/-- R130: `ENC` takes `x = sint(x_in)`, is total, and answers by the zero, exact or general branch. -/
def Obligations.EncEncodesEveryInteger : Prop :=
  (∀ c : Command, c.op = 0x1 → decode c = .enc (sint c.xIn)) ∧
  ∀ (s : State) (x : Int), IsInt32 x →
    ∃ t, exec (.enc x) s = .next t ∧ t.out.status = okCode
      ∧ (x = 0 → t.out.qLog = 0 ∧ t.out.qTail = 0)
      ∧ ∀ a, IsFloorLog2 x.natAbs a →
          (a ≠ 0 ∧ x.natAbs = 2 ^ a → sint t.out.qLog = (if x < 0 then -(a : Int) else a) ∧ t.out.qTail = 0)
          ∧ (¬ (a ≠ 0 ∧ x.natAbs = 2 ^ a) → 0 < x →
              sint t.out.qLog = a
              ∧ uint t.out.qTail
                  = (x - (if a = 0 then 0 else 2 ^ a)).toNat / binSizeOf false (if a = 0 then 0 else 2 ^ a) % 256)
          ∧ (¬ (a ≠ 0 ∧ x.natAbs = 2 ^ a) → x < 0 →
              sint t.out.qLog = -(a : Int) - 1
              ∧ uint t.out.qTail
                  = (2 ^ (a + 1) + x).toNat / binSizeOf true (if a = 0 then 0 else 2 ^ a) % 256)

/-- R150: `DEC` answers the integer `sign(log) * interval + tail * bin_size` for `log` in -31 .. 30, whatever the tail, and
reports `LOG_RANGE` otherwise. -/
def Obligations.DecDecodesOrReportsLogRange : Prop :=
  (∀ c : Command, c.op = 0x2 → decode c = .dec ⟨sint c.aLog, uint c.aTail⟩) ∧
  ∀ (s : State) (log : Int) (tail : Nat), CodeWord.WellFormed ⟨log, tail⟩ →
    ((log < -31 ∨ 30 < log) → ∃ t, exec (.dec ⟨log, tail⟩) s = .next t ∧ t.out.status = 3)
    ∧ (-31 ≤ log → log ≤ 30 → ∃ t, exec (.dec ⟨log, tail⟩) s = .next t ∧ t.out.status = okCode
        ∧ sint t.out.yOut
            = (if log < 0 then -1 else if log = 0 then 0 else 1) * 2 ^ log.natAbs
              + tail * binSizeOf (decide (log < 0)) (2 ^ log.natAbs))

/-- R97: `CLS` answers the classifier's fields for a non-zero `x` and reports `ZERO_OPERAND` for zero. -/
def Obligations.ClsClassifiesOrReportsZero : Prop :=
  (∀ c : Command, c.op = 0x3 → decode c = .cls (sint c.xIn)) ∧
  (∀ s : State, ∃ t, exec (.cls 0) s = .next t ∧ t.out.status = 2) ∧
  ∀ (s : State) (x : Int) (a : Nat), IsInt32 x → x ≠ 0 → IsFloorLog2 x.natAbs a →
    ∃ t, exec (.cls x) s = .next t ∧ t.out.status = okCode
      ∧ sint t.out.qLog
          = (if a ≠ 0 ∧ x.natAbs = 2 ^ a then (if x < 0 then -(a : Int) else a) else if 0 < x then (a : Int) else -(a : Int) - 1)
      ∧ uint t.out.yOut = (if a = 0 then 0 else 2 ^ a)
      ∧ (t.out.cNeg = true ↔ x < 0)
      ∧ (t.out.cExact = true ↔ a ≠ 0 ∧ x.natAbs = 2 ^ a)
      ∧ uint t.out.cAbsLog = a

/-- R114: `BOFE` answers the bin shift and the scaled-down tail for every operand its ports can carry. -/
def Obligations.BofeScalesDown : Prop :=
  (∀ c : Command, c.op = 0x4 → decode c = .bofe c.sNeg (uint c.sE) (uint c.xIn)) ∧
  ∀ (s : State) (neg : Bool) (e raw : Nat), e ≤ 31 → raw < 2 ^ 32 →
    ∃ t, exec (.bofe neg e raw) s = .next t ∧ t.out.status = okCode
      ∧ uint t.out.bShift = (if e < 9 then 0 else if neg then e - 9 else e - 8)
      ∧ uint t.out.qTail = raw / 2 ^ (if e < 9 then 0 else if neg then e - 9 else e - 8) % 256

/-- R115: `BOFD` answers the bin shift and the scaled-up offset, which always fits the 32-bit port. -/
def Obligations.BofdScalesUp : Prop :=
  (∀ c : Command, c.op = 0x5 → decode c = .bofd c.sNeg (uint c.sE) (uint c.aTail)) ∧
  ∀ (s : State) (neg : Bool) (e tail : Nat), e ≤ 31 → tail ≤ 255 →
    ∃ t, exec (.bofd neg e tail) s = .next t ∧ t.out.status = okCode
      ∧ uint t.out.bShift = (if e < 9 then 0 else if neg then e - 9 else e - 8)
      ∧ uint t.out.yOut = tail * 2 ^ (if e < 9 then 0 else if neg then e - 9 else e - 8)
      ∧ uint t.out.yOut ≤ 0x7F800000

/-- R171 to R174: the four comparisons answer the lexicographic order of the keys (R170), for every pair of code words. -/
def Obligations.ComparisonsFollowTheKeyOrder : Prop :=
  (∀ c : Command, (c.op = 0x8 → decode c = .cmplt c.wordA c.wordB) ∧ (c.op = 0x9 → decode c = .cmple c.wordA c.wordB)
    ∧ (c.op = 0xA → decode c = .cmpgt c.wordA c.wordB) ∧ (c.op = 0xB → decode c = .cmpge c.wordA c.wordB)) ∧
  ∀ (s : State) (a b : CodeWord),
    (∃ t, exec (.cmplt a b) s = .next t ∧ t.out.status = okCode ∧ (t.out.flag = true ↔ KeyBelow a b))
    ∧ (∃ t, exec (.cmple a b) s = .next t ∧ t.out.status = okCode ∧ (t.out.flag = true ↔ KeyBelow a b ∨ KeyTie a b))
    ∧ (∃ t, exec (.cmpgt a b) s = .next t ∧ t.out.status = okCode ∧ (t.out.flag = true ↔ KeyBelow b a))
    ∧ (∃ t, exec (.cmpge a b) s = .next t ∧ t.out.status = okCode ∧ (t.out.flag = true ↔ KeyBelow b a ∨ KeyTie a b))

/-- R72: each reserved op code selects no operation; its command is answered `ILLEGAL_OP` and nothing else happens. -/
def Obligations.ReservedOpsAnswerIllegalOp : Prop :=
  (∀ c : Command, ReservedOp c.op →
    decode c ∈ [.reserved0, .reserved6, .reserved7, .reservedC, .reservedD, .reservedE, .reservedF]) ∧
  ∀ s : State,
    (∃ t, exec .reserved0 s = .next t ∧ t.out.status = 1 ∧ t.inp = s.inp ∧ t.pending = s.pending)
    ∧ (∃ t, exec .reserved6 s = .next t ∧ t.out.status = 1 ∧ t.inp = s.inp ∧ t.pending = s.pending)
    ∧ (∃ t, exec .reserved7 s = .next t ∧ t.out.status = 1 ∧ t.inp = s.inp ∧ t.pending = s.pending)
    ∧ (∃ t, exec .reservedC s = .next t ∧ t.out.status = 1 ∧ t.inp = s.inp ∧ t.pending = s.pending)
    ∧ (∃ t, exec .reservedD s = .next t ∧ t.out.status = 1 ∧ t.inp = s.inp ∧ t.pending = s.pending)
    ∧ (∃ t, exec .reservedE s = .next t ∧ t.out.status = 1 ∧ t.inp = s.inp ∧ t.pending = s.pending)
    ∧ (∃ t, exec .reservedF s = .next t ∧ t.out.status = 1 ∧ t.inp = s.inp ∧ t.pending = s.pending)

/-! ## Whole-machine rules about responses -/

/-- R202, R203, R204, R205: which commands raise which fault, and that nothing else does. -/
def Obligations.StatusSaysExactlyWhichFault : Prop :=
  ∀ (s : State) (c : Command), ∃ t, exec (decode c) s = .next t
    ∧ (t.out.status = 1 ↔ ReservedOp c.op)
    ∧ (t.out.status = 2 ↔ c.op = 0x3 ∧ c.xIn = 0)
    ∧ (t.out.status = 3 ↔ c.op = 0x2 ∧ (sint c.aLog < -31 ∨ 30 < sint c.aLog))
    ∧ (c.op = 0x1 ∨ c.op = 0x4 ∨ c.op = 0x5 ∨ c.op = 0x8 ∨ c.op = 0x9 ∨ c.op = 0xA ∨ c.op = 0xB →
        t.out.status = okCode)
    ∧ (c.op = 0x1 → c.xIn = 0 → t.out.qLog = 0 ∧ t.out.qTail = 0)

/-- The frame of every operation: the host's side of the state is untouched, one draw of unspecified values is made, and the
output ports an operation does not write carry the model's free values (the form of log 5), those of a fault's response all
but `status`. -/
def Obligations.OperationsTouchOnlyTheirPorts : Prop :=
  (∀ (i : Instr) (s t : State), exec i s = .next t →
    t.inp = s.inp ∧ t.pending = s.pending ∧ t.draws = s.draws + 1) ∧
  (∀ (x : Int) (s t : State), exec (.enc x) s = .next t →
    t.out = { freePorts okCode s.draws s.inp with qLog := t.out.qLog, qTail := t.out.qTail }) ∧
  (∀ (a : CodeWord) (s t : State), exec (.dec a) s = .next t → t.out.status = okCode →
    t.out = { freePorts okCode s.draws s.inp with yOut := t.out.yOut }) ∧
  (∀ (x : Int) (s t : State), exec (.cls x) s = .next t → t.out.status = okCode →
    t.out = { freePorts okCode s.draws s.inp with
      qLog := t.out.qLog, yOut := t.out.yOut, cNeg := t.out.cNeg, cExact := t.out.cExact, cAbsLog := t.out.cAbsLog }) ∧
  (∀ (neg : Bool) (e raw : Nat) (s t : State), exec (.bofe neg e raw) s = .next t →
    t.out = { freePorts okCode s.draws s.inp with bShift := t.out.bShift, qTail := t.out.qTail }) ∧
  (∀ (neg : Bool) (e tail : Nat) (s t : State), exec (.bofd neg e tail) s = .next t →
    t.out = { freePorts okCode s.draws s.inp with bShift := t.out.bShift, yOut := t.out.yOut }) ∧
  (∀ (i : Instr) (a b : CodeWord) (s t : State), i ∈ [.cmplt a b, .cmple a b, .cmpgt a b, .cmpge a b] →
    exec i s = .next t → t.out = { freePorts okCode s.draws s.inp with flag := t.out.flag }) ∧
  (∀ (i : Instr) (s t : State), exec i s = .next t → t.out.status ≠ okCode →
    t.out = freePorts t.out.status s.draws s.inp)

/-- R46, R11: a response depends only on the command it answers: two machines with any histories, any other commands still to
come and any draws of unspecified values answer one command alike on every port its operation writes. -/
def Obligations.ResponseDependsOnlyOnItsCommand : Prop :=
  ∀ (s s' t t' : State) (c : Command) (rest rest' : List Command), s.pending = c :: rest → s'.pending = c :: rest' →
    step s = .next t → step s' = .next t' → AgreeOnWritten c.op t.out t'.out

/-- R71: ports an operation's format does not read are don't-care: changing them changes neither the operation nor its
response. -/
def Obligations.UnreadPortsAreIgnored : Prop :=
  ∀ (s : State) (c : Command) (x : BitVec 32) (la ta lb tb : BitVec 8) (n : Bool) (e : BitVec 5),
    (c.op = 0x1 ∨ c.op = 0x3 → exec (decode { c with aLog := la, aTail := ta, bLog := lb, bTail := tb, sNeg := n, sE := e }) s
      = exec (decode c) s)
    ∧ (c.op = 0x2 → exec (decode { c with xIn := x, bLog := lb, bTail := tb, sNeg := n, sE := e }) s = exec (decode c) s)
    ∧ (c.op = 0x8 ∨ c.op = 0x9 ∨ c.op = 0xA ∨ c.op = 0xB →
        exec (decode { c with xIn := x, sNeg := n, sE := e }) s = exec (decode c) s)
    ∧ (c.op = 0x4 → exec (decode { c with aLog := la, aTail := ta, bLog := lb, bTail := tb }) s = exec (decode c) s)
    ∧ (c.op = 0x5 → exec (decode { c with xIn := x, aLog := la, bLog := lb, bTail := tb }) s = exec (decode c) s)
    ∧ (ReservedOp c.op → exec (decode ⟨c.op, x, la, ta, lb, tb, n, e⟩) s = exec (decode c) s)
    ∧ (∀ t t', exec (decode c) s = .next t → exec (decode ⟨c.op, x, la, ta, lb, tb, n, e⟩) s = .next t' →
        (t.out.status = 1 ↔ t'.out.status = 1))

/-! ## Steps and runs -/

/-- A step runs the decoded operation: the host's next command is put on the input ports and answered; with none left the
ports keep their command (log 2). The last clause is the same for a command given by its image (log 8). -/
def Obligations.StepRunsTheDecodedCommand : Prop :=
  (∀ (s : State) (c : Command) (rest : List Command), s.pending = c :: rest →
    (decode c).wellFormed = true ∧ step s = exec (decode c) { s with inp := c, pending := rest }) ∧
  (∀ s : State, s.pending = [] → step s = exec (decode s.inp) s) ∧
  (∀ (s : State) (nbits w : Nat) (i : Instr), decodeTableWord nbits w = some i →
    step (s.withFetchWord nbits w) = exec i { s with inp := Command.ofWord (w % 2 ^ nbits) })

/-- R230's invariant, kept (indeed established) by every step from any state: the outputs hold the response to the command
on the inputs. What the inputs and the pending list become, an empty list leaving both as they are, is the model's choice
(log 2). -/
def Obligations.StepKeepsOutputsAnsweringInputs : Prop :=
  ∀ s : State, ∃ t, step s = .next t ∧ Coherent t ∧ t.inp = (s.pending.head?).getD s.inp ∧ t.pending = s.pending.tail

/-- At reset the outputs hold the response to the undriven command, which is `ILLEGAL_OP`; the undriven inputs are the model's
choice (log 3), the response follows from R230 and R72 (log 4). -/
def Obligations.ResetOutputsAnswerResetInputs : Prop :=
  Coherent State.reset ∧ State.reset.out.status = 1 ∧ State.reset.pending = []

/-- What a run does, from R23, R46 and R209: it answers every command of the host's list, in order, each with its own
response, whatever the commands before it were and whether or not they faulted. The list in State is the model's form of the
host's program (log 2). -/
def Obligations.RunAnswersEachCommandInTurn : Prop :=
  ∀ (s : State) (cs : List Command) (k : Nat) (c : Command), s.pending = cs → cs[k]? = some c →
    ∃ t : State, Host.Core.run Sys2Proof.core (k + 1) s = .next t
      ∧ t.inp = c ∧ t.out.holds (respond c) = true ∧ t.pending = cs.drop (k + 1)

/-- D27, R201: a program is finished, not faulted, exactly when each of its commands is answered with `status = OK`. -/
def Obligations.FinishedProgramsAreThoseWithoutFaults : Prop :=
  ∀ (s : State) (cs : List Command), s.pending = cs →
    (programFinished cs = true ↔
      ∀ k, k < cs.length → ∃ t : State, Host.Core.run Sys2Proof.core (k + 1) s = .next t ∧ t.out.status = okCode)

/-! ## Encodings -/

/-- R68: the operation is selected by `op` alone; the sixteen op codes, one by one, with the operands R65 assembles. -/
def Obligations.OpSelectsTheOperation : Prop :=
  ∀ c : Command,
    (c.op = 0x0 → decode c = .reserved0) ∧ (c.op = 0x1 → decode c = .enc (sint c.xIn))
    ∧ (c.op = 0x2 → decode c = .dec ⟨sint c.aLog, uint c.aTail⟩) ∧ (c.op = 0x3 → decode c = .cls (sint c.xIn))
    ∧ (c.op = 0x4 → decode c = .bofe c.sNeg (uint c.sE) (uint c.xIn))
    ∧ (c.op = 0x5 → decode c = .bofd c.sNeg (uint c.sE) (uint c.aTail))
    ∧ (c.op = 0x6 → decode c = .reserved6) ∧ (c.op = 0x7 → decode c = .reserved7)
    ∧ (c.op = 0x8 → decode c = .cmplt ⟨sint c.aLog, uint c.aTail⟩ ⟨sint c.bLog, uint c.bTail⟩)
    ∧ (c.op = 0x9 → decode c = .cmple ⟨sint c.aLog, uint c.aTail⟩ ⟨sint c.bLog, uint c.bTail⟩)
    ∧ (c.op = 0xA → decode c = .cmpgt ⟨sint c.aLog, uint c.aTail⟩ ⟨sint c.bLog, uint c.bTail⟩)
    ∧ (c.op = 0xB → decode c = .cmpge ⟨sint c.aLog, uint c.aTail⟩ ⟨sint c.bLog, uint c.bTail⟩)
    ∧ (c.op = 0xC → decode c = .reservedC) ∧ (c.op = 0xD → decode c = .reservedD)
    ∧ (c.op = 0xE → decode c = .reservedE) ∧ (c.op = 0xF → decode c = .reservedF)

/-- R69: `op[3:2] = 10` selects the comparator, `op[1]` swaps to greater and `op[0]` adds "or equal". -/
def Obligations.ComparatorOpBitsSelectTheRelation : Prop :=
  ∀ (s : State) (c : Command), c.op.extractLsb' 2 2 = 0b10 →
    ∃ t, exec (decode c) s = .next t ∧ t.out.status = okCode
      ∧ (t.out.flag = true ↔
          (if c.op.getLsbD 1 then KeyBelow c.wordB c.wordA else KeyBelow c.wordA c.wordB)
          ∨ c.op.getLsbD 0 = true ∧ KeyTie c.wordA c.wordB)

/-- Decode and encode agree: every well-formed operation, with every operand its ports admit, comes back from its command and
from its command's image (the image is the model's, log 8). -/
def Obligations.DecodeOfEncodeIsIdentity : Prop :=
  ∀ i : Instr, i.wellFormed = true →
    decode (encode i) = i ∧ decodeWord (encodeWord i) = .ok i ∧ decodeTableWord 74 (encodeWord i) = some i

/-- The encoder of a decoded command restores every port the operation's format reads (R64) and drives 0 on the others (the
model's choice, log 9). -/
def Obligations.EncodeOfDecodeRestoresReadPorts : Prop :=
  ∀ c : Command,
    (c.op = 0x1 ∨ c.op = 0x3 → encode (decode c) = { Command.idle with op := c.op, xIn := c.xIn })
    ∧ (c.op = 0x2 → encode (decode c) = { Command.idle with op := c.op, aLog := c.aLog, aTail := c.aTail })
    ∧ (c.op = 0x8 ∨ c.op = 0x9 ∨ c.op = 0xA ∨ c.op = 0xB →
        encode (decode c) = { c with xIn := 0, sNeg := false, sE := 0 })
    ∧ (c.op = 0x4 → encode (decode c) = { Command.idle with op := c.op, sNeg := c.sNeg, sE := c.sE, xIn := c.xIn })
    ∧ (c.op = 0x5 → encode (decode c) = { Command.idle with op := c.op, sNeg := c.sNeg, sE := c.sE, aTail := c.aTail })
    ∧ (ReservedOp c.op → encode (decode c) = { Command.idle with op := c.op })

/-- Commands and their 74-bit images correspond one to one (the layout is the model's, log 8). -/
def Obligations.CommandImageIsOneToOne : Prop :=
  (∀ c : Command, c.toWord < 2 ^ 74 ∧ Command.ofWord c.toWord = c) ∧
  ∀ w, w < 2 ^ 74 → (Command.ofWord w).toWord = w

/-- No bit pattern of an operand port makes a command ill-formed (R71, D23). -/
def Obligations.EveryCommandDecodesWellFormed : Prop :=
  ∀ c : Command, (decode c).wellFormed = true

/-- A few commands, written out from the tables of spec/30 and spec/95, decode to the operations they stand for. -/
def Obligations.SampleCommandsDecode : Prop :=
  decode ⟨0x1, 0x000003E8, 0x7F, 0, 0, 0, false, 0x1F⟩ = .enc 1000
  ∧ decode ⟨0x3, 0xFFFFFFF8, 0, 0, 0, 0, false, 0⟩ = .cls (-8)
  ∧ decode ⟨0x2, 0, 0xF6, 0x18, 0, 0, false, 0⟩ = .dec ⟨-10, 24⟩
  ∧ decode ⟨0x4, 0x000001A8, 0, 0, 0, 0, true, 9⟩ = .bofe true 9 424
  ∧ decode ⟨0x5, 0, 0, 0xF4, 0, 0, false, 9⟩ = .bofd false 9 244
  ∧ decode ⟨0xA, 0, 0xFE, 0x00, 0xFE, 0x01, false, 0⟩ = .cmpgt ⟨-2, 0⟩ ⟨-2, 1⟩
  ∧ decode ⟨0xC, 0, 0, 0, 0, 0, false, 0⟩ = .reservedC

/-! ## The bin offset calculator -/

/-- R110: the bin shift and bin size, for each side and interval exponent. -/
def Obligations.BinSizeFollowsTheIntervalFormula : Prop :=
  ∀ (neg : Bool) (e : Nat),
    sh neg e = (if e < 9 then 0 else if neg then e - 9 else e - 8)
    ∧ binSize neg e = 2 ^ sh neg e ∧ binSize neg e = binSizeOf neg (2 ^ e)
    ∧ (e ≤ 31 → sh neg e ≤ 23) ∧ sh false 31 = 23

/-- R112: the tail `BOFE` answers is the slice of eight bits of `raw` above the bin shift, bits above 31 read as 0; the wrap is
silent. -/
def Obligations.BofeTailIsABitSlice : Prop :=
  ∀ (s : State) (neg : Bool) (e : Nat) (raw : BitVec 32), e ≤ 31 →
    ∃ t, exec (.bofe neg e (uint raw)) s = .next t ∧ t.out.status = okCode
      ∧ uint t.out.qTail = uint raw / 2 ^ (if e < 9 then 0 else if neg then e - 9 else e - 8) % 256
      ∧ ∀ i, i < 8 → t.out.qTail.getLsbD i = raw.getLsbD ((if e < 9 then 0 else if neg then e - 9 else e - 8) + i)

/-! ## The classifier -/

/-- R92, R93: the magnitude and its highest set bit, in bits of `x_in`: `m` is `x_in` or its two's-complement negation read
unsigned, and `c_abs_log = 31 - clz32(m)`, 0 exactly for 1 and -1 and 31 exactly for -2^31. -/
def Obligations.AbsLogIsTheHighestMagnitudeBit : Prop :=
  ∀ (s : State) (xIn : BitVec 32), xIn ≠ 0 →
    ∃ t, exec (.cls (sint xIn)) s = .next t
      ∧ uint (if xIn.msb then ~~~xIn + 1 else xIn) = (sint xIn).natAbs
      ∧ uint t.out.cAbsLog = 31 - uint (BitVec.clz (if xIn.msb then ~~~xIn + 1 else xIn))
      ∧ (uint t.out.cAbsLog = 0 ↔ sint xIn = 1 ∨ sint xIn = -1)
      ∧ (uint t.out.cAbsLog = 31 ↔ sint xIn = -2 ^ 31)

/-- The exact-power test in bits (the derivation in R95): `c_exact` is set when `c_abs_log` is not 0 and no bit of the magnitude
below it is set. -/
def Obligations.ExactTestInBits : Prop :=
  ∀ (s : State) (xIn : BitVec 32), xIn ≠ 0 →
    ∃ t, exec (.cls (sint xIn)) s = .next t
      ∧ (t.out.cExact = true ↔ t.out.cAbsLog ≠ 0
          ∧ ∀ i, i < uint t.out.cAbsLog → (if xIn.msb then ~~~xIn + 1 else xIn).getLsbD i = false)

/-- Which integers land in which class (the table of R96), that the classes run from -31 to 30, and that the class never falls
as `x` grows. -/
def Obligations.ClassesPartitionTheIntegers : Prop :=
  ∀ (s : State) (x : Int) (o : OutPorts), IsInt32 x → x ≠ 0 → outputs (.cls x) s = some o →
    -31 ≤ sint o.qLog ∧ sint o.qLog ≤ 30
    ∧ (sint o.qLog = 0 ↔ x = 1)
    ∧ (∀ k : Nat, 1 ≤ k → (sint o.qLog = k ↔ 2 ^ k ≤ x ∧ x ≤ 2 ^ (k + 1) - 1))
    ∧ (sint o.qLog = -1 ↔ x = -2 ∨ x = -1)
    ∧ (∀ k : Nat, 2 ≤ k → (sint o.qLog = -(k : Int) ↔ -2 ^ k ≤ x ∧ x ≤ -2 ^ (k - 1) - 1))
    ∧ ∀ (x' : Int) (o' : OutPorts), IsInt32 x' → x' ≠ 0 → outputs (.cls x') s = some o' → x ≤ x' →
        sint o.qLog ≤ sint o'.qLog

/-- The consequences R98 lists for `x != 0`. -/
def Obligations.ClassifierConsequences : Prop :=
  ∀ (s : State) (x : Int) (o e : OutPorts), IsInt32 x → x ≠ 0 → outputs (.cls x) s = some o →
    outputs (.enc x) s = some e →
    (2 ^ uint o.cAbsLog ≤ x.natAbs ∧ x.natAbs < 2 ^ (uint o.cAbsLog + 1))
    ∧ (o.cExact = true → e.qTail = 0 ∧ sint o.qLog = sgn x * uint o.cAbsLog ∧ 1 ≤ uint o.cAbsLog)
    ∧ (o.cExact = false → 0 < x →
        (∃ l : Nat, sint o.qLog = l ∧ 2 ^ l < x ∧ x < 2 ^ (l + 1)) ∨ x = 1 ∧ sint o.qLog = 0)
    ∧ (o.cExact = false → x < 0 →
        (∃ l : Nat, sint o.qLog = -(l : Int) - 1 ∧ -2 ^ (l + 1) < x ∧ x < -2 ^ l) ∨ x = -1 ∧ sint o.qLog = -1)
    ∧ (x ≠ 1 → sgn (sint o.qLog) = sgn x)
    ∧ (sint o.qLog = 0 ↔ x = 1)

/-! ## The encoder -/

/-- The range of `log` (R131) and where its ends are reached. -/
def Obligations.EncLogRange : Prop :=
  ∀ (s : State) (x : Int), IsInt32 x → ∃ t, exec (.enc x) s = .next t
    ∧ -31 ≤ sint t.out.qLog ∧ sint t.out.qLog ≤ 30
    ∧ (sint t.out.qLog = 30 ↔ 2 ^ 30 ≤ x) ∧ (sint t.out.qLog = -31 ↔ x ≤ -2 ^ 30 - 1)

/-- The closed form of the tail in the general case (R132, R133). -/
def Obligations.EncTailClosedForm : Prop :=
  ∀ (s : State) (x : Int) (a : Nat), IsInt32 x → IsFloorLog2 x.natAbs a → ¬ (1 ≤ a ∧ x.natAbs = 2 ^ a) →
    ∃ t, exec (.enc x) s = .next t
      ∧ (0 < x → a = 0 → uint t.out.qTail = 1)
      ∧ (0 < x → 1 ≤ a → a ≤ 8 → (uint t.out.qTail : Int) = x - 2 ^ a ∧ 1 ≤ uint t.out.qTail)
      ∧ (0 < x → 9 ≤ a →
          ∀ i, i < 8 → t.out.qTail.getLsbD i = x.toNat.testBit (a - 8 + i))
      ∧ (x < 0 → a = 0 → uint t.out.qTail = 1)
      ∧ (x < 0 → 1 ≤ a → a ≤ 8 → (uint t.out.qTail : Int) = 2 ^ (a + 1) + x ∧ 1 ≤ uint t.out.qTail)
      ∧ (x < 0 → 9 ≤ a →
          uint t.out.qTail = (2 ^ (a + 1) - x.natAbs) / 2 ^ (a - 9) % 256
          ∧ (2 ^ (a + 1) - x.natAbs) / 2 ^ (a - 9) ≤ 511)

/-- Tail overflow happens exactly where R137 says, is stored minus 256, and is not reported. -/
def Obligations.TailOverflowExactlyInTheNearHalf : Prop :=
  ∀ (s : State) (x : Int) (a : Nat), IsInt32 x → IsFloorLog2 x.natAbs a → ¬ (1 ≤ a ∧ x.natAbs = 2 ^ a) →
    ∃ t, exec (.enc x) s = .next t ∧ t.out.status = okCode
      ∧ ∃ q r : Nat,
          ((r : Int) = if x < 0 then 2 ^ (a + 1) + x else x - (if a = 0 then 0 else 2 ^ a))
          ∧ q = r / binSizeOf (decide (x < 0)) (if a = 0 then 0 else 2 ^ a)
          ∧ (256 ≤ q ↔ x < 0 ∧ 9 ≤ a ∧ x.natAbs ≤ 3 * 2 ^ (a - 1))
          ∧ q ≤ 511
          ∧ uint t.out.qTail = (if 256 ≤ q then q - 256 else q)

/-- The canonical code words: the image of `ENC` (R139). -/
def Obligations.CanonicalWordsAreTheImageOfEnc : Prop :=
  ∀ (log : Int) (tail : Nat),
    (∃ (x : Int) (s : State) (o : OutPorts), IsInt32 x ∧ outputs (.enc x) s = some o ∧ o.word = ⟨log, tail⟩) ↔
      (log = 0 ∧ tail ≤ 1) ∨ (1 ≤ log ∧ log ≤ 8 ∧ tail < 2 ^ log.toNat) ∨ (9 ≤ log ∧ log ≤ 30 ∧ tail ≤ 255)
      ∨ (log = -1 ∧ tail ≤ 1) ∨ (-9 ≤ log ∧ log ≤ -2 ∧ tail < 2 ^ (-log - 1).toNat)
      ∨ (-31 ≤ log ∧ log ≤ -10 ∧ tail ≤ 255)

/-- `ENC` is many-to-one beyond 512 (R141): which integers of one class share a code word, on each side, and the exact power
below a negative class sharing with non-exact members. -/
def Obligations.WhichIntegersShareACodeWord : Prop :=
  (∀ (s : State) (x y : Int) (a : Nat) (o p : OutPorts), 9 ≤ a → IsInt32 x → IsInt32 y → 0 < x → 0 < y →
    IsFloorLog2 x.natAbs a → IsFloorLog2 y.natAbs a → outputs (.enc x) s = some o → outputs (.enc y) s = some p →
    (o.word = p.word ↔ x / 2 ^ (a - 8) = y / 2 ^ (a - 8))) ∧
  (∀ (s : State) (x y : Int) (a : Nat) (o p : OutPorts), 9 ≤ a → IsInt32 x → IsInt32 y → x < 0 → y < 0 →
    2 ^ a < x.natAbs → x.natAbs < 2 ^ (a + 1) → 2 ^ a < y.natAbs → y.natAbs < 2 ^ (a + 1) →
    outputs (.enc x) s = some o → outputs (.enc y) s = some p →
    (o.word = p.word ↔
      (2 ^ (a + 1) - x.natAbs) / 2 ^ (a - 9) % 256 = (2 ^ (a + 1) - y.natAbs) / 2 ^ (a - 9) % 256)) ∧
  (∀ (s : State) (x : Int) (a : Nat) (o p : OutPorts), 9 ≤ a → IsInt32 (-2 ^ (a + 1)) → x < 0 →
    2 ^ a < x.natAbs → x.natAbs < 2 ^ (a + 1) →
    outputs (.enc x) s = some o → outputs (.enc (-2 ^ (a + 1))) s = some p →
    (o.word = p.word ↔ (2 ^ (a + 1) - x.natAbs) / 2 ^ (a - 9) % 256 = 0))

/-- The corner inputs of R136 and R138 (decision D7), and the largest input. -/
def Obligations.EncCornerInputs : Prop :=
  ∀ s : State,
    (∃ t, exec (.enc 1) s = .next t ∧ t.out.word = ⟨0, 1⟩) ∧ (∃ t, exec (.enc (-1)) s = .next t ∧ t.out.word = ⟨-1, 1⟩)
    ∧ (∃ t, exec (.enc (-2147483648)) s = .next t ∧ t.out.word = ⟨-31, 0⟩)
    ∧ (∃ t, exec (.enc (-2147483647)) s = .next t ∧ t.out.word = ⟨-31, 0⟩)
    ∧ (∃ t, exec (.enc 2147483647) s = .next t ∧ t.out.word = ⟨30, 255⟩)

/-- `ENC` composed from the units' operations (R142). -/
def Obligations.EncComposesFromClsAndBofe : Prop :=
  (∀ s : State, ∃ t u, exec (.cls 0) s = .next t ∧ t.out.status = 2 ∧ exec (.enc 0) s = .next u ∧ u.out.word = ⟨0, 0⟩) ∧
  ∀ (s : State) (x : Int), IsInt32 x → x ≠ 0 →
    ∃ t u, exec (.cls x) s = .next t ∧ exec (.enc x) s = .next u ∧ t.out.status = okCode ∧ u.out.status = okCode
      ∧ (t.out.cExact = true → u.out.word = ⟨sint t.out.qLog, 0⟩)
      ∧ (t.out.cExact = false →
          ∃ v, exec (.bofe t.out.cNeg (uint t.out.cAbsLog)
                  (if 0 < x then x - uint t.out.yOut else 2 ^ (-sint t.out.qLog).toNat + x).toNat) t = .next v
            ∧ u.out.qLog = t.out.qLog ∧ u.out.qTail = v.out.qTail)

/-! ## The decoder and the round trip -/

/-- -31 .. 30 is exactly the set of `log` for which the decode formula's result fits a signed 32-bit integer for every tail
(R151), and exactly where `DEC` answers `OK`. -/
def Obligations.DecAcceptsExactlyWhatFits : Prop :=
  ∀ (s : State) (log : Int) (tail : Nat), CodeWord.WellFormed ⟨log, tail⟩ →
    ∃ t, exec (.dec ⟨log, tail⟩) s = .next t ∧ (t.out.status = okCode ↔ -31 ≤ log ∧ log ≤ 30)
      ∧ (t.out.status = okCode ↔
          ∀ u : Nat, u ≤ 255 →
            IsInt32 ((if log < 0 then -1 else if log = 0 then 0 else 1) * 2 ^ log.natAbs
              + u * binSizeOf (decide (log < 0)) (2 ^ log.natAbs)))

/-- Every bound of the decoded value R153 lists, class by class, and that class 0 decodes to its tail (R152). The spec marks both
rules as its own derivation. -/
def Obligations.DecodedValueBounds : Prop :=
  ∀ (s : State) (log : Int) (tail : Nat), -31 ≤ log → log ≤ 30 → tail ≤ 255 →
    ∃ t, exec (.dec ⟨log, tail⟩) s = .next t ∧ t.out.status = okCode
      ∧ (log = 0 → sint t.out.yOut = tail)
      ∧ (0 ≤ log → log ≤ 8 → 0 ≤ sint t.out.yOut ∧ sint t.out.yOut ≤ 2 ^ 8 + 255)
      ∧ (9 ≤ log → 2 ^ log.natAbs ≤ sint t.out.yOut
          ∧ sint t.out.yOut ≤ 2 ^ log.natAbs + 255 * 2 ^ (log.natAbs - 8)
          ∧ sint t.out.yOut < 2 ^ (log.natAbs + 1) ∧ sint t.out.yOut ≤ 2143289344)
      ∧ (-8 ≤ log → log ≤ -1 →
          -2 ^ log.natAbs ≤ sint t.out.yOut ∧ sint t.out.yOut ≤ -2 ^ log.natAbs + 255)
      ∧ (log ≤ -9 → -2 ^ log.natAbs ≤ sint t.out.yOut
          ∧ sint t.out.yOut ≤ -2 ^ log.natAbs + 255 * 2 ^ (log.natAbs - 9)
          ∧ sint t.out.yOut < -2 ^ (log.natAbs - 1) ∧ -2 ^ 31 ≤ sint t.out.yOut)

/-- `DEC` composed from `BOFD` (R157). -/
def Obligations.DecComposesFromBofd : Prop :=
  ∀ (s : State) (log : Int) (tail : Nat), -31 ≤ log → log ≤ 30 → tail ≤ 255 →
    ∃ t u, exec (.bofd (decide (log < 0)) log.natAbs tail) s = .next t ∧ exec (.dec ⟨log, tail⟩) s = .next u
      ∧ u.out.status = okCode ∧ sint u.out.yOut = sgn log * 2 ^ log.natAbs + uint t.out.yOut

/-- The exact round-trip range (R140, the spec's own derivation): `DEC(ENC(x)) = x` for these integers and no others. That
`-2^31` is among them rests on the spec's decision D7. -/
def Obligations.ExactRoundTripRange : Prop :=
  ∀ (s : State) (x : Int), IsInt32 x →
    (RoundTripGives s x x ↔
      (-512 ≤ x ∧ x ≤ 512) ∨ IsSignedPower x
      ∨ (512 < x ∧ ∀ a, IsFloorLog2 x.natAbs a → x % 2 ^ (a - 8) = 0))

/-- The round trip of small and of positive integers (R155): below 512 exact, above it the low `a - 8` bits cleared, so the
decoded value never exceeds `x` and the relative error is below 1/256. -/
def Obligations.PositiveRoundTripClearsLowBits : Prop :=
  (∀ (s : State) (x : Int), -512 ≤ x → x ≤ 512 → RoundTripGives s x x) ∧
  ∀ (s : State) (x : Int) (a : Nat), IsInt32 x → 512 < x → IsFloorLog2 x.natAbs a →
    RoundTripGives s x (x - x % 2 ^ (a - 8)) ∧ 0 ≤ x % 2 ^ (a - 8) ∧ x % 2 ^ (a - 8) < 2 ^ (a - 8)
    ∧ x % 2 ^ (a - 8) * 256 < x

/-- The round trip of negative non-powers beyond 512 (R156): the value decoded, the error, that the error is never 0, and the
few integers for which it stays below the encoder's bin size (90_conflicts.md C15). -/
def Obligations.NegativeRoundTripError : Prop :=
  ∀ (s : State) (x : Int) (a : Nat), IsInt32 x → x < -512 → IsFloorLog2 x.natAbs a → x.natAbs ≠ 2 ^ a →
    ∃ (y : Int) (r q rho : Nat), r = 2 ^ (a + 1) - x.natAbs ∧ q = r / 2 ^ (a - 9) ∧ rho = r % 2 ^ (a - 9)
      ∧ RoundTripGives s x y
      ∧ y = -2 ^ (a + 1) + ((q % 256 : Nat) : Int) * 2 ^ (a - 8)
      ∧ (q ≤ 255 → y - x = (q : Int) * 2 ^ (a - 9) - rho
          ∧ -(2 ^ (a - 9) - 1) ≤ y - x ∧ y - x ≤ 255 * 2 ^ (a - 9))
      ∧ (256 ≤ q → y - x = ((q : Int) - 512) * 2 ^ (a - 9) - rho
          ∧ -257 * 2 ^ (a - 9) + 1 ≤ y - x ∧ y - x ≤ -2 ^ (a - 9))
      ∧ y ≠ x
      ∧ ((y - x).natAbs < 2 ^ (a - 9) ↔ r < 2 ^ (a - 8) ∧ r ≠ 2 ^ (a - 9))

/-! ## The comparator -/

/-- The laws of the four comparisons (R175). -/
def Obligations.ComparisonLaws : Prop :=
  ∀ (s : State) (a b c : CodeWord),
    verdict (.cmpgt a b) s = verdict (.cmplt b a) s
    ∧ verdict (.cmpge a b) s = verdict (.cmple b a) s
    ∧ verdict (.cmple a b) s = (verdict (.cmpgt a b) s).map (! ·)
    ∧ verdict (.cmpge a b) s = (verdict (.cmplt a b) s).map (! ·)
    ∧ verdict (.cmple a a) s = some true ∧ verdict (.cmplt a a) s = some false
    ∧ (verdict (.cmple a b) s = some true → verdict (.cmple b c) s = some true → verdict (.cmple a c) s = some true)
    ∧ (verdict (.cmplt a b) s = some true → verdict (.cmplt b c) s = some true → verdict (.cmplt a c) s = some true)
    ∧ ¬ (verdict (.cmplt a b) s = some true ∧ verdict (.cmpgt a b) s = some true)
    ∧ (verdict (.cmple a b) s = some true ∧ verdict (.cmpge a b) s = some true
        ↔ verdict (.cmplt a b) s = some false ∧ verdict (.cmpgt a b) s = some false)
    ∧ (verdict (.cmple a b) s = some true ∧ verdict (.cmpge a b) s = some true ↔ KeyTie a b)

/-- The comparator as gates (R179): one signed and one unsigned 8-bit comparison. -/
def Obligations.ComparatorLogicForm : Prop :=
  ∀ (s : State) (c : Command),
    (c.op = 0x8 → verdict (decode c) s = some
      (c.aLog.slt c.bLog || (c.aLog == c.bLog && c.aLog != 0
        && (if c.aLog.msb then c.bTail.ult c.aTail else c.aTail.ult c.bTail))))
    ∧ (c.op = 0x9 → verdict (decode c) s = some
      (c.aLog.slt c.bLog || (c.aLog == c.bLog && c.aLog != 0
        && (if c.aLog.msb then c.bTail.ult c.aTail else c.aTail.ult c.bTail))
        || (c.aLog == c.bLog && (c.aLog == 0 || c.aTail == c.bTail))))

/-- Where the comparator agrees with the order of the integers and where it does not (the table of R176). -/
def Obligations.ComparatorAgainstIntegerOrder : Prop :=
  ∀ (s : State) (u v : Int) (o p : OutPorts), IsInt32 u → IsInt32 v → u < v →
    outputs (.enc u) s = some o → outputs (.enc v) s = some p →
    (o.word.log ≠ p.word.log → verdict (.cmplt o.word p.word) s = some true)
    ∧ (o.word.log = p.word.log → 0 < o.word.log → o.word.tail ≠ p.word.tail →
        verdict (.cmplt o.word p.word) s = some true)
    ∧ (o.word = p.word → verdict (.cmplt o.word p.word) s = some false ∧ verdict (.cmpgt o.word p.word) s = some false)
    ∧ (u = 0 → v = 1 → verdict (.cmplt o.word p.word) s = some false ∧ verdict (.cmpgt o.word p.word) s = some false)
    ∧ (o.word.log = p.word.log → o.word.log < 0 → -512 ≤ u →
        verdict (.cmplt o.word p.word) s = some false ∧ verdict (.cmpgt o.word p.word) s = some true)

/-! ## Stored code words and host macros -/

/-- R40: a stored code word is two bytes, `log` first, then `tail`. -/
def Obligations.StoredWordIsLogThenTail : Prop :=
  ∀ w : CodeWord, w.WellFormed →
    ∃ l t : Byte, bytesOfWord w = [l, t] ∧ sint l = w.log ∧ uint t = w.tail ∧ wordOfBytes l t = w

/-- An array of code words (R42): `2n` bytes, word `i` at offsets `2i` and `2i+1`. -/
def Obligations.StoredArrayIsPacked : Prop :=
  ∀ (ws : List CodeWord) (i : Nat) (w : CodeWord), (∀ v ∈ ws, v.WellFormed) → ws[i]? = some w →
    (bytesOfWords ws).length = 2 * ws.length
    ∧ (bytesOfWords ws)[2 * i]? = some (sext 8 w.log) ∧ (bytesOfWords ws)[2 * i + 1]? = some (zext 8 w.tail)
    ∧ wordAt (bytesOfWords ws) i = some w

/-- R190, R191: a host macro decodes its code-word operands with `DEC`, takes an integer operand as it is, applies the exact
operation, fails with `DEC`'s status when one reports `LOG_RANGE`, and in policy (b) re-encodes with `ENC`. A
result outside 32 bits is refused in both policies (R193, U10): the stop's name is the model's (log 18), and every result that
is answered fits 32 bits. -/
def Obligations.MacrosRunDecThenTheHostThenEnc : Prop :=
  (∀ (s : State) (op : MacroOp) (p q : CodeWord) (v : Int) (o r : OutPorts), p.WellFormed → q.WellFormed →
    outputs (.dec p) s = some o → outputs (.dec q) s = some r →
    (o.status = okCode → r.status = okCode →
      AnswersExactly op (.word p) (.word q) (sint o.yOut) (sint r.yOut)
      ∧ AnswersExactly op (.word p) (.int v) (sint o.yOut) v
      ∧ AnswersExactly op (.int v) (.word q) v (sint r.yOut))
    ∧ (o.status = 3 ∨ r.status = 3 → qopD op (.word p) (.word q) = .error (.status .logRange))
    ∧ (o.status = 3 → qopD op (.word p) (.int v) = .error (.status .logRange))
    ∧ (r.status = 3 → qopD op (.int v) (.word q) = .error (.status .logRange))) ∧
  (∀ (op : MacroOp) (u v : Int), AnswersExactly op (.int u) (.int v) u v) ∧
  (∀ (s : State) (op : MacroOp) (p q : MacroOperand) (y : Int) (o : OutPorts), qopD op p q = .ok y →
    outputs (.enc y) s = some o → IsInt32 y ∧ qopQ op p q = .ok o.word) ∧
  (∀ (op : MacroOp) (p q : MacroOperand) (e : MacroStop), qopD op p q = .error e → qopQ op p q = .error e)

/-- Host arithmetic on code words (R194): on integers in the exact round-trip range policy (a) gives the exact result and
policy (b) its re-encoding when it fits 32 bits, and both refuse it otherwise (R193, U10; the stop's name is log 18). -/
def Obligations.MacrosAreExactOnTheExactRange : Prop :=
  ∀ (s : State) (op : MacroOp) (a b : Int) (o p : OutPorts), IsInt32 a → IsInt32 b →
    RoundTripGives s a a → RoundTripGives s b b → outputs (.enc a) s = some o → outputs (.enc b) s = some p →
    AnswersExactly op (.word o.word) (.word p.word) a b
    ∧ (∀ q, IsInt32 (op.apply a b) → outputs (.enc (op.apply a b)) s = some q →
        qopQ op (.word o.word) (.word p.word) = .ok q.word)
    ∧ (¬ IsInt32 (op.apply a b) → qopQ op (.word o.word) (.word p.word) = .error (.resultTooWide (op.apply a b)))
end

