-- ==== Sys2Proof/Laws/Decode.lean ====
section
/-! SUPPORT. Small facts about decoding, so that no later proof unfolds a word of 74 bits. -/

namespace Sys2Proof

/-- A fact about every op code, from the sixteen of them. -/
theorem op_cases {P : Prop} (c : Command) (h : ∀ k : Nat, k < 16 → c.op = BitVec.ofNat 4 k → P) : P :=
  h c.op.toNat c.op.isLt (by simp)

theorem decodeWord_of_lt {w : Nat} (h : w < 2 ^ 74) : decodeWord w = .ok (decode (Command.ofWord w)) := if_pos h

theorem decodeWord_of_ge {w : Nat} (h : ¬ w < 2 ^ 74) : decodeWord w = .error .wordTooWide := if_neg h

theorem decodeTableWord_of_ok {nbits w : Nat} {i : Instr} (h : decodeWord (w % 2 ^ nbits) = .ok i) :
    decodeTableWord nbits w = some i := by
  unfold decodeTableWord
  rw [h]

theorem decodeTableWord_some {nbits w : Nat} {i : Instr} (h : decodeTableWord nbits w = some i) :
    decode (Command.ofWord (w % 2 ^ nbits)) = i := by
  unfold decodeTableWord at h
  generalize w % 2 ^ nbits = v at h
  by_cases hv : v < 2 ^ 74
  · rw [decodeWord_of_lt hv] at h
    exact Option.some.inj h
  · rw [decodeWord_of_ge hv] at h
    exact absurd h (by simp)

end Sys2Proof
end

