-- ==== Sys2Proof/Laws/State.lean ====
section
/-! SUPPORT. One lemma per field of State for each update the machine makes. -/

namespace Sys2Proof.Machine

@[simp] theorem respond_inp (r : Response) (s : State) : (s.respond r).inp = s.inp := rfl

@[simp] theorem respond_pending (r : Response) (s : State) : (s.respond r).pending = s.pending := rfl

@[simp] theorem respond_draws (r : Response) (s : State) : (s.respond r).draws = s.draws + 1 := rfl

@[simp] theorem respond_out (r : Response) (s : State) : (s.respond r).out = r.drive s.draws s.inp := rfl

theorem present_of_nil {s : State} (h : s.pending = []) : s.present = s := by simp [State.present, h]

theorem present_of_cons {s : State} {c : Command} {rest : List Command} (h : s.pending = c :: rest) :
    s.present = { s with inp := c, pending := rest } := by simp [State.present, h]

@[simp] theorem present_out (s : State) : s.present.out = s.out := by
  cases h : s.pending <;> simp [State.present, h]

@[simp] theorem present_draws (s : State) : s.present.draws = s.draws := by
  cases h : s.pending <;> simp [State.present, h]

@[simp] theorem present_inp (s : State) : s.present.inp = s.pending.head?.getD s.inp := by
  cases h : s.pending <;> simp [State.present, h]

@[simp] theorem present_pending (s : State) : s.present.pending = s.pending.tail := by
  cases h : s.pending <;> simp [State.present, h]

@[simp] theorem withFetchWord_pending (s : State) (nbits w : Nat) :
    (s.withFetchWord nbits w).pending = Command.ofWord (w % 2 ^ nbits) :: s.pending := rfl

end Sys2Proof.Machine
end

