-- ==== Sys2Proof/Laws/Ops.lean ====
section
/-! SUPPORT. What driving the output ports and answering a command do, said once. -/

namespace Sys2Proof.Machine

/-- A response reads back from the ports it drives, whatever is drawn for the ports it does not write. -/
theorem holds_drive (r : Response) (n : Nat) (c : Command) : (r.drive n c).holds r = true := by
  cases r <;> simp [Response.drive, OutPorts.holds, freePorts]

@[simp] theorem drive_status (r : Response) (n : Nat) (c : Command) : (r.drive n c).status = r.status := by
  cases r <;> rfl

/-- Everything answering a command can do. -/
theorem answer_cases {r : Response} {s t : State} (h : answer r s = .next t) : t = s.respond r := by
  cases h; rfl

/-- Raising a fault answers with its code. -/
theorem raise_eq (code : FaultCode) (s : State) : raise code s = .next (s.respond (.fault code)) := rfl

theorem code_ne_ok (code : FaultCode) : code.code ≠ okCode := by cases code <;> decide

theorem fault_status_ne_ok (code : FaultCode) : (Response.fault code).status ≠ okCode := code_ne_ok code

/-- A response is a fault exactly when its status is not `OK`. -/
theorem status_ne_ok_iff (r : Response) : r.status ≠ okCode ↔ ∃ code, r = .fault code := by
  cases r <;> simp [Response.status, code_ne_ok]

end Sys2Proof.Machine
end

