-- ==== Sys2Proof/Laws/Exec.lean ====
section
/-! SUPPORT. `exec` answers with the response the units give, for every operation: later proofs cite this and do not unfold the
meanings. -/

namespace Sys2Proof.Machine

/-- Everything an operation can do: drive the ports with its response. -/
theorem exec_eq_answer (i : Instr) (s : State) : exec i s = .next (s.respond (responseOf i)) := by
  cases i with
  | dec a =>
    simp only [exec, execDec, responseOf]
    cases logInRange a.log <;> rfl
  | cls x =>
    simp only [exec, execCls, responseOf]
    cases lmc x <;> rfl
  | _ => rfl

theorem exec_next_iff {i : Instr} {s t : State} : exec i s = .next t ↔ t = s.respond (responseOf i) := by
  rw [exec_eq_answer]
  exact ⟨fun h => by cases h; rfl, fun h => by rw [h]⟩

@[simp] theorem outputs_eq (i : Instr) (s : State) :
    outputs i s = some ((responseOf i).drive s.draws s.inp) := by
  simp [outputs, exec_eq_answer]

/-- The comparator's verdict is the flag its response carries. -/
theorem verdict_of_cmp {i : Instr} {f : Bool} (h : responseOf i = .cmp f) (s : State) : verdict i s = some f := by
  simp [verdict, h, Response.drive, freePorts]

/-- A step is one answer of the block to the command presented. -/
theorem step_eq_respond (s : State) : step s = .next (s.present.respond (respond s.present.inp)) :=
  exec_eq_answer _ _

theorem run_succ (k : Nat) (s : State) :
    Host.Core.run Sys2Proof.core (k + 1) s
      = Host.Core.run Sys2Proof.core k (s.present.respond (respond s.present.inp)) := by
  have h : Sys2Proof.core.step s = .next (s.present.respond (respond s.present.inp)) := step_eq_respond s
  simp only [Host.Core.run, h]

end Sys2Proof.Machine
end

