-- ==== Sys2Proof/Laws/Units.lean ====
section
/-! SUPPORT. The units in closed form: what the classifier, the bin offset calculator, the encoder and the decoder compute,
case by case, so that later proofs work with powers of two and not with the units' definitions. -/

namespace Sys2Proof.Machine

/-! ## Field readings (R8, R9) -/

theorem sint_sext8 {v : Int} (h : -128 ≤ v ∧ v ≤ 127) : sint (sext 8 v) = v := by
  simp only [BitVec.toInt_ofInt, Int.bmod_def]
  omega

theorem sint_sext32 {v : Int} (h : IsInt32 v) : sint (sext 32 v) = v := by
  simp only [BitVec.toInt_ofInt, Int.bmod_def]
  omega

theorem uint_zext8 {v : Nat} (h : v ≤ 255) : uint (zext 8 v) = v := by
  simp only [BitVec.toNat_ofNat]
  omega

theorem uint_zext5 {v : Nat} (h : v ≤ 31) : uint (zext 5 v) = v := by
  simp only [BitVec.toNat_ofNat]
  omega

theorem uint_zext32 {v : Nat} (h : v < 2 ^ 32) : uint (zext 32 v) = v := by
  simp only [BitVec.toNat_ofNat]
  omega

theorem isInt32_sint (v : BitVec 32) : IsInt32 (sint v) := by
  have h := BitVec.le_toInt v
  have h' := BitVec.toInt_lt (x := v)
  show _ ≤ v.toInt ∧ v.toInt < _
  omega

theorem sint8_bounds (v : BitVec 8) : -128 ≤ sint v ∧ sint v ≤ 127 := by
  have h := BitVec.le_toInt v
  have h' := BitVec.toInt_lt (x := v)
  show _ ≤ v.toInt ∧ v.toInt ≤ 127
  omega

/-! ## floor_log2 (R9) -/

theorem floorLog2_spec {m : Nat} (h : m ≠ 0) : IsFloorLog2 m (floorLog2 m) :=
  ⟨Nat.log2_self_le h, Nat.lt_log2_self⟩

theorem floorLog2_of {m a : Nat} (h : IsFloorLog2 m a) : floorLog2 m = a :=
  (Nat.log2_eq_iff (by have := h.1; have := Nat.two_pow_pos a; omega)).2 h

theorem isFloorLog2_unique {m a b : Nat} (ha : IsFloorLog2 m a) (hb : IsFloorLog2 m b) : a = b := by
  rw [← floorLog2_of ha, floorLog2_of hb]

/-- R93: `a <= 31` for a 32-bit operand. -/
theorem absLog_le {x : Int} {a : Nat} (hx : IsInt32 x) (h : IsFloorLog2 x.natAbs a) : a ≤ 31 := by
  by_contra hc
  have h32 : 2 ^ 32 ≤ 2 ^ a := Nat.pow_le_pow_right (by decide) (by omega)
  have := h.1
  omega

/-! ## The bin offset calculator (R110) -/

theorem sh_small (neg : Bool) {e : Nat} (h : e < 9) : sh neg e = 0 := by
  have h512 : 2 ^ e < 2 ^ 9 := Nat.pow_lt_pow_right (by decide) h
  simp [sh, Config.binThreshold, show 2 ^ e < 512 from h512]

theorem sh_large (neg : Bool) {e : Nat} (h : 9 ≤ e) : sh neg e = if neg then e - 9 else e - 8 := by
  have h512 : 2 ^ 9 ≤ 2 ^ e := Nat.pow_le_pow_right (by decide) h
  have hn : ¬ 2 ^ e < 512 := by omega
  simp [sh, Config.binThreshold, hn, Config.negShift, Config.posShift]

theorem sh_eq (neg : Bool) (e : Nat) : sh neg e = if e < 9 then 0 else if neg then e - 9 else e - 8 := by
  by_cases h : e < 9
  · simp [sh_small neg h, h]
  · simp [sh_large neg (Nat.le_of_not_lt h), h]

theorem scaleDown_eq (neg : Bool) (e raw : Nat) : scaleDown neg e raw = raw / 2 ^ sh neg e % 256 := by
  simp [scaleDown, Config.tailModulus, Nat.shiftRight_eq_div_pow]

theorem scaleUp_eq (neg : Bool) (e tail : Nat) : scaleUp neg e tail = tail * 2 ^ sh neg e := by
  simp [scaleUp, Nat.shiftLeft_eq]

theorem scaleDown_le (neg : Bool) (e raw : Nat) : scaleDown neg e raw ≤ 255 := by
  rw [scaleDown_eq]; omega

/-! ## The classifier and the encoder in closed form (R90, R130) -/

theorem sgn_of_neg {v : Int} (h : v < 0) : sgn v = -1 := by simp [sgn, h]

theorem sgn_of_pos {v : Int} (h : 0 < v) : sgn v = 1 := by
  simp [sgn, show ¬ v < 0 by omega, show v ≠ 0 by omega]

@[simp] theorem sgn_zero : sgn 0 = 0 := rfl

@[simp] theorem lmc_zero : lmc 0 = .zero := rfl

/-- R90 for a non-zero `x` whose magnitude has its highest set bit at `a`. -/
theorem lmc_of {x : Int} {a : Nat} (hx : x ≠ 0) (h : IsFloorLog2 x.natAbs a) :
    lmc x = .nonzero
      { neg := decide (x < 0), mag := x.natAbs, absLog := a, interval := classInterval a,
        exact := decide (classInterval a = x.natAbs),
        log := classLog x a (decide (classInterval a = x.natAbs)) } := by
  simp [lmc, hx, magnitude, floorLog2_of h, negFlag, exactFlag]

/-- R94, R95: when the exact branch is taken. -/
theorem exact_iff {m a : Nat} (h : IsFloorLog2 m a) : classInterval a = m ↔ a ≠ 0 ∧ m = 2 ^ a := by
  unfold classInterval
  split
  · have := h.1
    rename_i h0
    subst h0
    simp
    omega
  · rename_i h0
    simp [h0, eq_comm]

@[simp] theorem encodeInt_zero : encodeInt 0 = ⟨0, 0⟩ := rfl

/-- R130 step 4. -/
theorem encodeInt_exact {x : Int} {a : Nat} (h : IsFloorLog2 x.natAbs a) (he : a ≠ 0 ∧ x.natAbs = 2 ^ a) :
    encodeInt x = ⟨sgn x * a, 0⟩ := by
  have hx : x ≠ 0 := by
    rintro rfl
    have := h.1
    have := Nat.two_pow_pos a
    omega
  simp [encodeInt, lmc_of hx h, (exact_iff h).2 he, classLog]

/-- R130 step 5 for a positive `x`. -/
theorem encodeInt_pos {x : Int} {a : Nat} (hx : 0 < x) (h : IsFloorLog2 x.natAbs a)
    (he : ¬ (a ≠ 0 ∧ x.natAbs = 2 ^ a)) :
    encodeInt x = ⟨a, (x.natAbs - classInterval a) / 2 ^ sh false a % 256⟩ := by
  have hc : ¬ classInterval a = x.natAbs := fun hh => he ((exact_iff h).1 hh)
  have hr : (x - classInterval a).toNat = x.natAbs - classInterval a := by omega
  simp [encodeInt, lmc_of (show x ≠ 0 by omega) h, hc, classLog, hx, show ¬ x < 0 by omega, rawOffset, hr, scaleDown_eq]

/-- R130 step 5 for a negative `x`. -/
theorem encodeInt_neg {x : Int} {a : Nat} (hx : x < 0) (h : IsFloorLog2 x.natAbs a)
    (he : ¬ (a ≠ 0 ∧ x.natAbs = 2 ^ a)) :
    encodeInt x = ⟨-a - 1, (2 ^ (a + 1) - x.natAbs) / 2 ^ sh true a % 256⟩ := by
  have hc : ¬ classInterval a = x.natAbs := fun hh => he ((exact_iff h).1 hh)
  have hl : (-(-(a : Int) - 1)).toNat = a + 1 := by omega
  have hr : ((2 : Int) ^ (a + 1) + x).toNat = 2 ^ (a + 1) - x.natAbs := by
    have : ((2 ^ (a + 1) : Nat) : Int) = (2 : Int) ^ (a + 1) := by push_cast; rfl
    omega
  simp only [encodeInt, lmc_of (show x ≠ 0 by omega) h, hc, classLog, show ¬ 0 < x by omega, hx, rawOffset,
    scaleDown_eq, decide_false, decide_true, if_false, Bool.false_eq_true, hl, hr]

/-- The interval's powers below 512 (R133: no scaling below class 9), and the bound `r < 2^a`. -/
theorem encodeInt_tail_le (x : Int) : (encodeInt x).tail ≤ 255 := by
  unfold encodeInt
  split
  · simp
  · split
    · simp
    · exact scaleDown_le _ _ _

/-! ## The decoder in closed form (R150) -/

theorem logInRange_iff {log : Int} : logInRange log = true ↔ -31 ≤ log ∧ log ≤ 30 := by
  unfold logInRange
  rw [decide_eq_true_eq]

theorem decodeInt_eq (log : Int) (tail : Nat) :
    decodeInt ⟨log, tail⟩
      = sgn log * 2 ^ log.natAbs + (tail * 2 ^ sh (decide (log < 0)) log.natAbs : Nat) := by
  simp [decodeInt, scaleUp_eq]

/-! ## The comparator (R170) -/

theorem keyLt_iff (a b : CodeWord) : keyLt a b = true ↔ KeyBelow a b := by
  obtain ⟨la, ta⟩ := a
  obtain ⟨lb, tb⟩ := b
  unfold keyLt
  rw [decide_eq_true_eq]
  simp only [key, KeyBelow]
  constructor
  · rintro (h | ⟨rfl, h⟩)
    · exact Or.inl h
    · rcases lt_trichotomy la 0 with hl | hl | hl
      · simp only [sgn_of_neg hl] at h
        exact Or.inr ⟨rfl, Or.inr ⟨hl, by omega⟩⟩
      · simp [hl] at h
      · simp only [sgn_of_pos hl] at h
        exact Or.inr ⟨rfl, Or.inl ⟨hl, by omega⟩⟩
  · rintro (h | ⟨rfl, ⟨hl, h⟩ | ⟨hl, h⟩⟩)
    · exact Or.inl h
    · exact Or.inr ⟨rfl, by simp only [sgn_of_pos hl]; omega⟩
    · exact Or.inr ⟨rfl, by simp only [sgn_of_neg hl]; omega⟩

theorem key_eq_iff (a b : CodeWord) : key a = key b ↔ KeyTie a b := by
  obtain ⟨la, ta⟩ := a
  obtain ⟨lb, tb⟩ := b
  simp only [key, KeyTie, Prod.mk.injEq]
  constructor
  · rintro ⟨rfl, h⟩
    refine ⟨rfl, ?_⟩
    rcases lt_trichotomy la 0 with hl | hl | hl
    · simp only [sgn_of_neg hl] at h; omega
    · exact Or.inl hl
    · simp only [sgn_of_pos hl] at h; omega
  · rintro ⟨rfl, rfl | rfl⟩ <;> simp

theorem keyLe_iff (a b : CodeWord) : keyLe a b = true ↔ KeyBelow a b ∨ KeyTie a b := by
  simp [keyLe, keyLt_iff, key_eq_iff]

end Sys2Proof.Machine
end

