-- ==== Sys2Proof/Laws/Ports.lean ====
section
/-! SUPPORT. What the output ports read as after `ENC`, `DEC` and `CLS`: the units' integers fit the ports that carry them, so
reading a port gives the integer back. -/

namespace Sys2Proof.Machine

theorem ne_zero_of_isFloorLog2 {x : Int} {a : Nat} (h : IsFloorLog2 x.natAbs a) : x ≠ 0 := by
  rintro rfl
  have := h.1
  have := Nat.two_pow_pos a
  simp at *

theorem exists_isFloorLog2 {x : Int} (h : x ≠ 0) : ∃ a, IsFloorLog2 x.natAbs a := ⟨_, floorLog2_spec (by omega)⟩

theorem sint_eq_zero_iff {w : Nat} (v : BitVec w) : sint v = 0 ↔ v = 0 := by
  constructor
  · intro h
    exact BitVec.eq_of_toInt_eq (by simpa using h)
  · rintro rfl
    simp

/-- R92: the magnitude of a 32-bit operand, in bits. -/
theorem uint_neg_of_msb (v : BitVec 32) : uint (if v.msb then ~~~v + 1 else v) = (sint v).natAbs := by
  rw [show ~~~v + 1 = -v from (BitVec.neg_eq_not_add v).symm]
  have h := v.isLt
  have hm := BitVec.msb_eq_decide v
  simp only [uint, sint, BitVec.toInt_eq_toNat_cond]
  split
  · rw [BitVec.toNat_neg]
    simp_all
    omega
  · simp_all
    omega

/-- R96: the class of a 32-bit integer fits `q_log`. -/
theorem classLog_bounds {x : Int} {a : Nat} (hx : IsInt32 x) (h : IsFloorLog2 x.natAbs a) :
    -31 ≤ classLog x a (decide (classInterval a = x.natAbs))
      ∧ classLog x a (decide (classInterval a = x.natAbs)) ≤ 30 := by
  have h31 := absLog_le hx h
  have h0 := ne_zero_of_isFloorLog2 h
  obtain ⟨h1, h2⟩ := h
  rcases lt_or_gt_of_ne h0 with hn | hn
  · simp only [classLog, classInterval, sgn_of_neg hn]
    interval_cases a <;> simp at * <;> (try split) <;> omega
  · simp only [classLog, classInterval, sgn_of_pos hn]
    interval_cases a <;> simp at * <;> omega

theorem encodeInt_log_eq {x : Int} {a : Nat} (h : IsFloorLog2 x.natAbs a) :
    (encodeInt x).log = classLog x a (decide (classInterval a = x.natAbs)) := by
  unfold encodeInt
  rw [lmc_of (ne_zero_of_isFloorLog2 h) h]
  dsimp only
  split <;> rfl

theorem encodeInt_log_bounds {x : Int} (hx : IsInt32 x) : -31 ≤ (encodeInt x).log ∧ (encodeInt x).log ≤ 30 := by
  by_cases h0 : x = 0
  · subst h0
    decide
  · obtain ⟨a, ha⟩ := exists_isFloorLog2 h0
    rw [encodeInt_log_eq ha]
    exact classLog_bounds hx ha

/-- The code word on the result ports after `ENC`. -/
theorem word_respond_enc {x : Int} (hx : IsInt32 x) (s : State) :
    (s.respond (responseOf (.enc x))).out.word = encodeInt x := by
  have hb := encodeInt_log_bounds hx
  have h1 : sint (s.respond (responseOf (.enc x))).out.qLog = (encodeInt x).log := sint_sext8 (by omega)
  have h2 : uint (s.respond (responseOf (.enc x))).out.qTail = (encodeInt x).tail := uint_zext8 (encodeInt_tail_le x)
  unfold OutPorts.word
  rw [h1, h2]

/-- R151: within the accepted range the decoded integer fits `y_out`. -/
theorem isInt32_decodeInt {log : Int} {tail : Nat} (h1 : -31 ≤ log) (h2 : log ≤ 30) (ht : tail ≤ 255) :
    IsInt32 (decodeInt ⟨log, tail⟩) := by
  rw [decodeInt_eq]
  interval_cases log <;> simp [sh, Config.binThreshold, Config.posShift, Config.negShift, sgn] <;> omega

/-- `y_out` after `DEC` of a code word in range. -/
theorem yOut_respond_dec {log : Int} {tail : Nat} (h1 : -31 ≤ log) (h2 : log ≤ 30) (ht : tail ≤ 255) (s : State) :
    sint (s.respond (responseOf (.dec ⟨log, tail⟩))).out.yOut = decodeInt ⟨log, tail⟩ := by
  simp only [responseOf, logInRange_iff.2 ⟨h1, h2⟩, if_true]
  exact sint_sext32 (isInt32_decodeInt h1 h2 ht)

theorem status_dec (w : CodeWord) : (responseOf (.dec w)).status = if -31 ≤ w.log ∧ w.log ≤ 30 then 0 else 3 := by
  by_cases h : logInRange w.log = true
  · simp [responseOf, h, logInRange_iff.1 h, decResponse, Response.status, okCode]
  · have := fun hh => h (logInRange_iff.2 hh)
    rw [if_neg this]
    simp [responseOf, h, Response.status, FaultCode.code]

theorem status_cls (x : Int) : (responseOf (.cls x)).status = if x = 0 then 2 else 0 := by
  by_cases h : x = 0
  · subst h
    rfl
  · simp [responseOf, lmc, h, clsResponse, Response.status, okCode]

end Sys2Proof.Machine
end

