-- ==== Sys2Proof/Laws/Macros.lean ====
section
/-! SUPPORT. What the host macros can answer, said once: the operand values and the two outcomes of an exact result (R191, R193). -/

namespace Sys2Proof.Machine

theorem fitResult_of_fits {y : Int} (h : IsInt32 y) : fitResult y = .ok y := if_pos h

theorem fitResult_of_wide {y : Int} (h : ¬ IsInt32 y) : fitResult y = .error (.resultTooWide y) := if_neg h

/-- An exact result is answered only when it fits 32 bits, and it is then answered unchanged. -/
theorem fitResult_ok_iff {y z : Int} : fitResult y = .ok z ↔ IsInt32 y ∧ z = y := by
  by_cases h : IsInt32 y
  · rw [fitResult_of_fits h]
    exact ⟨fun e => ⟨h, (Except.ok.inj e).symm⟩, fun e => by rw [e.2]⟩
  · rw [fitResult_of_wide h]
    exact ⟨fun e => absurd e (by simp), fun e => absurd e.1 h⟩

@[simp] theorem operandValue_int (v : Int) : operandValue (.int v) = .ok v := rfl

theorem operandValue_word_of_inRange {w : CodeWord} (h : -31 ≤ w.log ∧ w.log ≤ 30) :
    operandValue (.word w) = .ok (decodeInt w) := if_pos (logInRange_iff.2 h)

theorem operandValue_word_of_outside {w : CodeWord} (h : ¬ (-31 ≤ w.log ∧ w.log ≤ 30)) :
    operandValue (.word w) = .error (.status .logRange) := if_neg fun h' => h (logInRange_iff.1 h')

theorem qopD_of_values {op : MacroOp} {p q : MacroOperand} {u v : Int} (hp : operandValue p = .ok u)
    (hq : operandValue q = .ok v) : qopD op p q = fitResult (op.apply u v) := by
  unfold qopD
  rw [hp, hq]

end Sys2Proof.Machine
end

