-- ==== Sys2Proof/Laws/PerInstr.lean ====
section
/-! SUPPORT. A property of every operation as syntax, one lemma per constructor. -/

/-- R68, R72: the op code the table gives the operation's row is the one its command carries. -/
def Sys2Proof.Laws.CarriesItsOpCode.Statement (i : Sys2Proof.Instr) : Prop :=
  (Sys2Proof.encode i).op = match i with
    | .enc _ => 0x1#4
    | .dec _ => 0x2#4
    | .cls _ => 0x3#4
    | .bofe _ _ _ => 0x4#4
    | .bofd _ _ _ => 0x5#4
    | .cmplt _ _ => 0x8#4
    | .cmple _ _ => 0x9#4
    | .cmpgt _ _ => 0xA#4
    | .cmpge _ _ => 0xB#4
    | .reserved0 => 0x0#4
    | .reserved6 => 0x6#4
    | .reserved7 => 0x7#4
    | .reservedC => 0xC#4
    | .reservedD => 0xD#4
    | .reservedE => 0xE#4
    | .reservedF => 0xF#4

namespace Sys2Proof.Laws.CarriesItsOpCode

theorem enc (x : Int) : Statement (.enc x) := rfl
theorem dec (a : CodeWord) : Statement (.dec a) := rfl
theorem cls (x : Int) : Statement (.cls x) := rfl
theorem bofe (neg : Bool) (e raw : Nat) : Statement (.bofe neg e raw) := rfl
theorem bofd (neg : Bool) (e tail : Nat) : Statement (.bofd neg e tail) := rfl
theorem cmplt (a b : CodeWord) : Statement (.cmplt a b) := rfl
theorem cmple (a b : CodeWord) : Statement (.cmple a b) := rfl
theorem cmpgt (a b : CodeWord) : Statement (.cmpgt a b) := rfl
theorem cmpge (a b : CodeWord) : Statement (.cmpge a b) := rfl
theorem reserved0 : Statement .reserved0 := rfl
theorem reserved6 : Statement .reserved6 := rfl
theorem reserved7 : Statement .reserved7 := rfl
theorem reservedC : Statement .reservedC := rfl
theorem reservedD : Statement .reservedD := rfl
theorem reservedE : Statement .reservedE := rfl
theorem reservedF : Statement .reservedF := rfl

end Sys2Proof.Laws.CarriesItsOpCode
end

