-- ==== Sys2Proof/Tests/Slice0.lean ====
section
/-! SUPPORT. Tests. Expected results are copied from the tables of spec/95_test_vectors.md (named in each comment) or written out
from the spec's encodings; the last part shows, for every statement with hypotheses,
      concrete inputs that meet them. -/

open Sys2Proof Sys2Proof.Machine

namespace Sys2Proof.Tests

/-- A state to run on: reset, with a used draw counter. -/
def base : State := { State.reset with draws := 7 }

/-- The state whose host is about to issue these commands. -/
def issuing (cs : List Command) : State := { base with pending := cs }

/-! ## Ill-formed terms: one for each check of WellFormed -/

theorem test_illformed_enc_above : Instr.wellFormed (.enc 2147483648) = false := by decide
theorem test_illformed_enc_below : Instr.wellFormed (.enc (-2147483649)) = false := by decide
theorem test_illformed_cls_above : Instr.wellFormed (.cls 2147483648) = false := by decide
theorem test_illformed_cls_below : Instr.wellFormed (.cls (-2147483649)) = false := by decide
theorem test_illformed_dec_log_above : Instr.wellFormed (.dec ⟨128, 0⟩) = false := by decide
theorem test_illformed_dec_log_below : Instr.wellFormed (.dec ⟨-129, 0⟩) = false := by decide
theorem test_illformed_dec_tail : Instr.wellFormed (.dec ⟨0, 256⟩) = false := by decide
theorem test_illformed_bofe_e : Instr.wellFormed (.bofe false 32 0) = false := by decide
theorem test_illformed_bofe_raw : Instr.wellFormed (.bofe true 0 4294967296) = false := by decide
theorem test_illformed_bofd_e : Instr.wellFormed (.bofd false 32 0) = false := by decide
theorem test_illformed_bofd_tail : Instr.wellFormed (.bofd true 0 256) = false := by decide
theorem test_illformed_cmplt_first : Instr.wellFormed (.cmplt ⟨128, 0⟩ ⟨0, 0⟩) = false := by decide
theorem test_illformed_cmplt_second : Instr.wellFormed (.cmplt ⟨0, 0⟩ ⟨0, 256⟩) = false := by decide
theorem test_illformed_cmple_first : Instr.wellFormed (.cmple ⟨128, 0⟩ ⟨0, 0⟩) = false := by decide
theorem test_illformed_cmple_second : Instr.wellFormed (.cmple ⟨0, 0⟩ ⟨0, 256⟩) = false := by decide
theorem test_illformed_cmpgt_first : Instr.wellFormed (.cmpgt ⟨128, 0⟩ ⟨0, 0⟩) = false := by decide
theorem test_illformed_cmpgt_second : Instr.wellFormed (.cmpgt ⟨0, 0⟩ ⟨0, 256⟩) = false := by decide
theorem test_illformed_cmpge_first : Instr.wellFormed (.cmpge ⟨128, 0⟩ ⟨0, 0⟩) = false := by decide
theorem test_illformed_cmpge_second : Instr.wellFormed (.cmpge ⟨0, 0⟩ ⟨0, 256⟩) = false := by decide
theorem test_wellformed_extremes : Instr.wellFormed (.enc (-2147483648)) = true
      ∧ Instr.wellFormed (.bofe true 31 4294967295) = true
    ∧ Instr.wellFormed (.cmplt ⟨-128, 255⟩ ⟨127, 0⟩) = true := by decide

/-! ## Decoding, from the encodings of spec/30 (R64, R68) and spec/95: op, x_in, a_log, a_tail, b_log, b_tail,
      s_neg, s_e -/

theorem test_decode_enc : decode ⟨0b0001, 0xFFFFFFFF, 0, 0, 0, 0, false, 0⟩ = .enc (-1) := by decide
theorem test_decode_dec : decode ⟨0b0010, 0, 0b11110110, 0b10101000, 0, 0, false, 0⟩ = .dec ⟨-10, 168⟩ := by decide
theorem test_decode_cls : decode ⟨0b0011, 0x80000000, 0, 0, 0, 0, false, 0⟩ = .cls (-2147483648) := by decide
theorem test_decode_bofe : decode ⟨0b0100, 0xFFFFFFFF, 0, 0, 0, 0, true, 0b11111⟩ = .bofe true 31 4294967295 :=
      by decide
theorem test_decode_bofd : decode ⟨0b0101, 0, 0, 0b11110100, 0, 0, false, 0b01001⟩ = .bofd false 9 244 := by decide
theorem test_decode_cmplt : decode ⟨0b1000, 0, 0b01111111, 0, 0b10000000, 0, false, 0⟩
      = .cmplt ⟨127, 0⟩ ⟨-128, 0⟩ := by decide
theorem test_decode_cmple : decode ⟨0b1001, 0, 0b00001001, 0b11110100, 0b00001001, 0b11110100, false, 0⟩
      = .cmple ⟨9, 244⟩ ⟨9, 244⟩ := by decide
theorem test_decode_cmpgt : decode ⟨0b1010, 0, 0b11111110, 0, 0b11111110, 0b00000001, false, 0⟩
      = .cmpgt ⟨-2, 0⟩ ⟨-2, 1⟩ := by decide
theorem test_decode_cmpge : decode ⟨0b1011, 0, 0b00000011, 0b00000010, 0b00000011, 0, false, 0⟩
      = .cmpge ⟨3, 2⟩ ⟨3, 0⟩ := by decide
theorem test_decode_reserved0 : decode ⟨0b0000, 0, 0b01111111, 0, 0, 0, false, 0⟩ = .reserved0 := by decide
theorem test_decode_reserved6 : decode ⟨0b0110, 0, 0b01111111, 0, 0, 0, false, 0⟩ = .reserved6 := by decide
theorem test_decode_reserved7 : decode ⟨0b0111, 0, 0b01111111, 0, 0, 0, false, 0⟩ = .reserved7 := by decide
theorem test_decode_reservedC : decode ⟨0b1100, 0, 0b01111111, 0, 0, 0, false, 0⟩ = .reservedC := by decide
theorem test_decode_reservedD : decode ⟨0b1101, 0, 0b01111111, 0, 0, 0, false, 0⟩ = .reservedD := by decide
theorem test_decode_reservedE : decode ⟨0b1110, 0, 0b01111111, 0, 0, 0, false, 0⟩ = .reservedE := by decide
theorem test_decode_reservedF : decode ⟨0b1111, 0, 0b01111111, 0, 0, 0, false, 0⟩ = .reservedF := by decide

/-! The flat image of a command (log 8), and the encoder. -/

theorem test_image_enc : decodeWord 0x3e81 = .ok (.enc 1000) ∧ encodeWord (.enc 1000) = 0x3e81 := by decide
theorem test_image_dec : decodeWord 0x18f6000000002 = .ok (.dec ⟨-10, 24⟩) ∧ encodeWord (.dec ⟨-10, 24⟩)
      = 0x18f6000000002 := by decide
theorem test_image_bofe : decodeWord 0x1300000000000001a84 = .ok (.bofe true 9 424)
      ∧ encodeWord (.bofe true 9 424) = 0x1300000000000001a84 := by decide
theorem test_image_cmpgt : decodeWord 0x1fe00fe00000000a = .ok (.cmpgt ⟨-2, 0⟩ ⟨-2, 1⟩)
      ∧ encodeWord (.cmpgt ⟨-2, 0⟩ ⟨-2, 1⟩) = 0x1fe00fe00000000a := by decide
theorem test_image_too_wide : decodeWord 0x4000000000000000000 = .error .wordTooWide := by decide
theorem test_table_word_of_every_row : (List.range 16).map (decodeTableWord 8)
      = [some .reserved0, some (.enc 0), some (.dec ⟨0, 0⟩), some (.cls 0),
    some (.bofe false 0 0), some (.bofd false 0 0), some .reserved6, some .reserved7, some (.cmplt ⟨0, 0⟩ ⟨0, 0⟩),
    some (.cmple ⟨0, 0⟩ ⟨0, 0⟩), some (.cmpgt ⟨0, 0⟩ ⟨0, 0⟩), some (.cmpge ⟨0, 0⟩ ⟨0, 0⟩), some .reservedC,
      some .reservedD,
    some .reservedE, some .reservedF] := by decide
theorem test_encode_enc : encode (.enc (-8)) = ⟨0x1, 0xFFFFFFF8, 0, 0, 0, 0, false, 0⟩ := by decide

/-! ## Meanings: at most two tests per operation; only the ports the operation writes are looked at -/

/-- V-ENC, the wrap: `ENC -600 = (-10, 168)`. -/
theorem test_enc_wraps : (outputs (.enc (-600)) base).map OutPorts.word = some ⟨-10, 168⟩ := by decide
/-- V-ENC, the quirk of 1: `ENC -1 = (-1, 1)`. -/
theorem test_enc_quirk : (outputs (.enc (-1)) base).map OutPorts.word = some ⟨-1, 1⟩ := by decide
/-- V-DEC: `DEC (-31, 255) = 0xBFC00000`. -/
theorem test_dec_lowest_class : (outputs (.dec ⟨-31, 255⟩) base).map (fun o => (o.status, o.yOut))
      = some (0, 0xBFC00000) := by decide
/-- V-DEC: `DEC (31, 0)` is `LOG_RANGE`. -/
theorem test_dec_log_range : (outputs (.dec ⟨31, 0⟩) base).map OutPorts.status = some 3 := by decide
/-- V-CLS: `CLS -512` takes the exact branch. -/
theorem test_cls_exact : (outputs (.cls (-512)) base).map (fun o => (o.qLog, o.yOut, o.cNeg, o.cExact, o.cAbsLog))
    = some (0xF7, 0x00000200, true, true, 9) := by decide
/-- V-CLS: `CLS 0` is `ZERO_OPERAND`. -/
theorem test_cls_zero : (outputs (.cls 0) base).map OutPorts.status = some 2 := by decide
/-- V-BOFE: `1, 16, 31072` gives shift 7 and tail 0xF2. -/
theorem test_bofe_negative_side : (outputs (.bofe true 16 31072) base).map (fun o => (o.bShift, o.qTail))
      = some (7, 0xF2) := by decide
/-- V-BOFE: `0, 31, 2^32-1` gives shift 23 and tail 0xFF. -/
theorem test_bofe_top : (outputs (.bofe false 31 4294967295) base).map (fun o => (o.bShift, o.qTail))
      = some (23, 0xFF) := by decide
/-- V-BOFD: `0, 31, 255` gives the largest offset. -/
theorem test_bofd_top : (outputs (.bofd false 31 255) base).map (fun o => (o.bShift, o.yOut))
      = some (23, 0x7F800000) := by decide
/-- V-BOFD: `1, 9, 255` is still unscaled. -/
theorem test_bofd_threshold : (outputs (.bofd true 9 255) base).map (fun o => (o.bShift, o.yOut))
      = some (0, 0xFF) := by decide
/-- V-CMP: inside a negative class the order is reversed, and 0 ties with 1. -/
theorem test_cmplt : verdict (.cmplt ⟨-2, 1⟩ ⟨-2, 0⟩) base = some true ∧ verdict (.cmplt ⟨0, 0⟩ ⟨0, 1⟩) base
      = some false := by decide
theorem test_cmple : verdict (.cmple ⟨-2, 1⟩ ⟨-2, 0⟩) base = some true ∧ verdict (.cmple ⟨0, 0⟩ ⟨0, 1⟩) base
      = some true := by decide
theorem test_cmpgt : verdict (.cmpgt ⟨-2, 1⟩ ⟨-2, 0⟩) base = some false ∧ verdict (.cmpgt ⟨0, 0⟩ ⟨0, 1⟩) base
      = some false := by decide
theorem test_cmpge : verdict (.cmpge ⟨-2, 1⟩ ⟨-2, 0⟩) base = some false ∧ verdict (.cmpge ⟨0, 0⟩ ⟨0, 1⟩) base
      = some true := by decide
/-- V-OP: every reserved op code. -/
theorem test_reserved : [Instr.reserved0, .reserved6, .reserved7, .reservedC, .reservedD, .reservedE, .reservedF].all
    (fun i => (outputs i base).map OutPorts.status == some 1) = true := by decide

/-! ## Steps -/

/-- Reset answers `ILLEGAL_OP` before any command (R230, R72; log 4). -/
theorem test_reset_status : State.reset.out.status = 1 := by decide

/-- The first step after a command is laid in place runs it (P1 line 1: `ENC 1000`). -/
theorem test_first_step : step (State.reset.withFetchWord 74 0x3E81)
    = exec (.enc 1000) { State.reset with inp := ⟨0x1, 0x000003E8, 0, 0, 0, 0, false, 0⟩ } := by rfl

/-- A table word of a whole byte runs as its row's operation, operands zero. -/
theorem test_first_step_of_a_row : step (State.reset.withFetchWord 8 0x6)
    = exec .reserved6 { State.reset with inp := ⟨0x6, 0, 0, 0, 0, 0, false, 0⟩ } := by rfl

/-- R230: with no command left the block goes on answering the one on its inputs. -/
theorem test_step_without_commands : step base = exec .reserved0 base := by rfl

/-! ## Stored code words and host macros -/

/-- P1: `buf = 09 F4 09 F4 FD 00`. -/
theorem test_stored_array : bytesOfWords [⟨9, 244⟩, ⟨9, 244⟩, ⟨-3, 0⟩] = [0x09, 0xF4, 0x09, 0xF4, 0xFD, 0x00] :=
      by decide
/-- P4: `QADD.D`, `QADD.Q`, `QSUB.D`, `QMUL.D`. -/
theorem test_macros_p4 : qopD .add (.word ⟨8, 44⟩) (.word ⟨7, 83⟩) = .ok 511
      ∧ qopQ .add (.word ⟨9, 244⟩) (.word ⟨9, 244⟩) = .ok ⟨10, 244⟩
    ∧ qopD .sub (.word ⟨9, 244⟩) (.word ⟨8, 44⟩) = .ok 700 ∧ qopD .mul (.word ⟨8, 44⟩) (.word ⟨7, 83⟩)
      = .ok 63300 := by decide
/-- R193, U10: the largest result that fits, and the first that is refused, in both policies. -/
theorem test_macros_width : qopD .add (.int 2147483646) (.word ⟨0, 1⟩) = .ok 2147483647
    ∧ qopD .add (.int 2147483647) (.word ⟨0, 1⟩) = .error (.resultTooWide 2147483648)
    ∧ qopQ .sub (.word ⟨-31, 0⟩) (.int 1) = .error (.resultTooWide (-2147483649)) := by decide
/-- P5, D27: a program with a fault is faulted; its other commands are still answered. -/
theorem test_program_p5 : programFinished [⟨0x3, 0, 0, 0, 0, 0, false, 0⟩, ⟨0x1, 0, 0, 0, 0, 0, false, 0⟩] = false
    ∧ programFinished [⟨0x1, 0, 0, 0, 0, 0, false, 0⟩] = true := by decide

/-! ## Witnesses: inputs that meet the hypotheses of each statement, clause by clause, at the ends of the ranges -/

theorem witness_EncEncodesEveryInteger_exact :
    (IsInt32 (-2147483648) ∧ IsFloorLog2 (-2147483648 : Int).natAbs 31 ∧ ((31 : Nat) ≠ 0
      ∧ (-2147483648 : Int).natAbs = 2 ^ 31))
    ∧ (IsInt32 2 ∧ IsFloorLog2 (2 : Int).natAbs 1 ∧ ((1 : Nat) ≠ 0 ∧ (2 : Int).natAbs = 2 ^ 1)) := by decide
theorem witness_EncEncodesEveryInteger_positive :
    (IsInt32 (1) ∧ IsFloorLog2 (1 : Int).natAbs 0 ∧ ¬ ((0 : Nat) ≠ 0 ∧ (1 : Int).natAbs = 2 ^ 0))
    ∧ (IsInt32 (2147483647) ∧ IsFloorLog2 (2147483647 : Int).natAbs 30 ∧ ¬ ((30 : Nat) ≠ 0
      ∧ (2147483647 : Int).natAbs = 2 ^ 30)) := by decide
theorem witness_EncEncodesEveryInteger_negative :
    (IsInt32 (-1) ∧ IsFloorLog2 (-1 : Int).natAbs 0 ∧ ¬ ((0 : Nat) ≠ 0 ∧ (-1 : Int).natAbs = 2 ^ 0))
    ∧ (IsInt32 (-2147483647) ∧ IsFloorLog2 (-2147483647 : Int).natAbs 30 ∧ ¬ ((30 : Nat) ≠ 0
      ∧ (-2147483647 : Int).natAbs = 2 ^ 30)) := by decide
theorem witness_EncEncodesEveryInteger_zero : IsInt32 0 ∧ (⟨0x1, 0, 0, 0, 0, 0, false, 0⟩ : Command).op = 0x1 :=
      by decide
theorem witness_DecDecodesOrReportsLogRange_outside :
    CodeWord.WellFormed ⟨31, 255⟩ ∧ (30 : Int) < 31 ∧ CodeWord.WellFormed ⟨-32, 0⟩ ∧ (-32 : Int) < -31
    ∧ CodeWord.WellFormed ⟨127, 255⟩ ∧ CodeWord.WellFormed ⟨-128, 0⟩ := by decide
theorem witness_DecDecodesOrReportsLogRange_inside :
    CodeWord.WellFormed ⟨30, 255⟩ ∧ (-31 : Int) ≤ 30 ∧ (30 : Int) ≤ 30 ∧ CodeWord.WellFormed ⟨-31, 0⟩
      ∧ (-31 : Int) ≤ -31
    ∧ CodeWord.WellFormed ⟨0, 255⟩ := by decide
theorem witness_ClsClassifiesOrReportsZero :
    (IsInt32 (-2147483648) ∧ (-2147483648 : Int) ≠ 0 ∧ IsFloorLog2 (-2147483648 : Int).natAbs 31)
    ∧ (IsInt32 2147483647 ∧ (2147483647 : Int) ≠ 0 ∧ IsFloorLog2 (2147483647 : Int).natAbs 30)
    ∧ (IsInt32 (-1) ∧ (-1 : Int) ≠ 0 ∧ IsFloorLog2 (-1 : Int).natAbs 0)
    ∧ (⟨0x3, 0, 0, 0, 0, 0, false, 0⟩ : Command).op = 0x3 := by decide
theorem witness_BofeScalesDown : (31 ≤ 31 ∧ 4294967295 < 2 ^ 32) ∧ (8 ≤ 31 ∧ 0 < 2 ^ 32) ∧ (9 : Nat) ≤ 31 := by decide
theorem witness_BofdScalesUp : (31 ≤ 31 ∧ 255 ≤ 255) ∧ (8 ≤ 31 ∧ 0 ≤ 255) ∧ (9 : Nat) ≤ 31 := by decide
theorem witness_ComparisonsFollowTheKeyOrder :
    KeyBelow ⟨-128, 0⟩ ⟨127, 0⟩ ∧ KeyBelow ⟨1, 0⟩ ⟨1, 255⟩ ∧ KeyBelow ⟨-1, 255⟩ ⟨-1, 0⟩ ∧ KeyTie ⟨0, 0⟩ ⟨0, 255⟩
    ∧ KeyTie ⟨-31, 7⟩ ⟨-31, 7⟩ := by simp [KeyBelow, KeyTie]
theorem witness_ReservedOpsAnswerIllegalOp :
    ReservedOp 0x0 ∧ ReservedOp 0x6 ∧ ReservedOp 0x7 ∧ ReservedOp 0xC ∧ ReservedOp 0xD ∧ ReservedOp 0xE
      ∧ ReservedOp 0xF := by simp [ReservedOp]
theorem witness_StatusSaysExactlyWhichFault :
    ∀ op : BitVec 4, op ∈ [0x1, 0x4, 0x5, 0x8, 0x9, 0xA, 0xB] →
    op = 0x1 ∨ op = 0x4 ∨ op = 0x5 ∨ op = 0x8 ∨ op = 0x9 ∨ op = 0xA ∨ op = 0xB := by decide
theorem witness_OperationsTouchOnlyTheirPorts_ok :
    (∃ t, exec (.enc 0) base = .next t) ∧ (∃ t, exec (.dec ⟨30, 255⟩) base = .next t ∧ t.out.status = okCode)
    ∧ (∃ t, exec (.cls (-1)) base = .next t ∧ t.out.status = okCode) ∧ (∃ t, exec (.bofe true 31 0) base = .next t)
    ∧ (∃ t, exec (.bofd false 0 255) base = .next t) ∧ (∃ t, exec (.cmpge ⟨0, 0⟩ ⟨0, 1⟩) base = .next t) :=
      ⟨⟨_, rfl⟩, ⟨_, rfl, rfl⟩, ⟨_, rfl, rfl⟩, ⟨_, rfl⟩, ⟨_, rfl⟩, ⟨_, rfl⟩⟩
theorem witness_OperationsTouchOnlyTheirPorts_fault :
    (∃ t, exec (.dec ⟨31, 0⟩) base = .next t ∧ t.out.status ≠ okCode)
    ∧ (∃ t, exec (.cls 0) base = .next t ∧ t.out.status ≠ okCode)
    ∧ (∃ t, exec .reservedF base = .next t ∧ t.out.status ≠ okCode) :=
      ⟨⟨_, rfl, by decide⟩, ⟨_, rfl, by decide⟩, ⟨_, rfl, by decide⟩⟩
theorem witness_ResponseDependsOnlyOnItsCommand :
    (∃ t, step (issuing [⟨0x1, 5, 0, 0, 0, 0, false, 0⟩]) = .next t)
    ∧ ∃ t, step (issuing [⟨0x1, 5, 0, 0, 0, 0, false, 0⟩, ⟨0x3, 0, 0, 0, 0, 0, false, 0⟩]) = .next t :=
      ⟨⟨_, rfl⟩, ⟨_, rfl⟩⟩
theorem witness_UnreadPortsAreIgnored :
    (∀ op : BitVec 4, op = 0x1 ∨ op = 0x2 ∨ op = 0x3 ∨ op = 0x4 ∨ op = 0x5 ∨ op = 0x8 ∨ op = 0x9 ∨ op = 0xA ∨ op
      = 0xB ∨ ReservedOp op)
    ∧ (∃ t, exec .reserved6 base = .next t) := ⟨by unfold ReservedOp; decide, ⟨_, rfl⟩⟩
theorem witness_StepRunsTheDecodedCommand :
    (issuing [⟨0x1, 5, 0, 0, 0, 0, false, 0⟩]).pending = ⟨0x1, 5, 0, 0, 0, 0, false, 0⟩ :: [] ∧ base.pending = []
      ∧ decodeTableWord 8 0xB = some (.cmpge ⟨0, 0⟩ ⟨0, 0⟩)
    ∧ decodeTableWord 74 0x51 = some (.enc 5) := by decide
theorem witness_StepKeepsOutputsAnsweringInputs :
    (issuing [⟨0x1, 5, 0, 0, 0, 0, false, 0⟩]).pending.head? = some ⟨0x1, 5, 0, 0, 0, 0, false, 0⟩
      ∧ base.pending.head? = none := by decide
theorem witness_RunAnswersEachCommandInTurn :
    (issuing [⟨0x3, 0, 0, 0, 0, 0, false, 0⟩, ⟨0x1, 5, 0, 0, 0, 0, false, 0⟩]).pending
      = [⟨0x3, 0, 0, 0, 0, 0, false, 0⟩, ⟨0x1, 5, 0, 0, 0, 0, false, 0⟩]
    ∧ [(⟨0x3, 0, 0, 0, 0, 0, false, 0⟩ : Command), ⟨0x1, 5, 0, 0, 0, 0, false, 0⟩][0]?
      = some ⟨0x3, 0, 0, 0, 0, 0, false, 0⟩
    ∧ [(⟨0x3, 0, 0, 0, 0, 0, false, 0⟩ : Command), ⟨0x1, 5, 0, 0, 0, 0, false, 0⟩][1]?
      = some ⟨0x1, 5, 0, 0, 0, 0, false, 0⟩ := by decide
theorem witness_FinishedProgramsAreThoseWithoutFaults :
    (issuing [⟨0x1, 5, 0, 0, 0, 0, false, 0⟩]).pending = [⟨0x1, 5, 0, 0, 0, 0, false, 0⟩]
      ∧ programFinished [⟨0x1, 5, 0, 0, 0, 0, false, 0⟩] = true
    ∧ (issuing [⟨0x3, 0, 0, 0, 0, 0, false, 0⟩]).pending = [⟨0x3, 0, 0, 0, 0, 0, false, 0⟩]
      ∧ programFinished [⟨0x3, 0, 0, 0, 0, 0, false, 0⟩] = false ∧ base.pending = [] := by decide
theorem witness_OpSelectsTheOperation :
    ∀ op : BitVec 4, op.toNat < 16 ∧ (⟨op, 0, 0, 0, 0, 0, false, 0⟩ : Command).op = op := by decide
theorem witness_ComparatorOpBitsSelectTheRelation :
    [0x8#4, 0x9#4, 0xA#4, 0xB#4].all (fun op => op.extractLsb' 2 2 == 0b10#2) = true := by decide
theorem witness_DecodeOfEncodeIsIdentity :
    Instr.wellFormed (.enc (-2147483648)) = true ∧ Instr.wellFormed (.dec ⟨-128, 255⟩) = true
    ∧ Instr.wellFormed (.cls 2147483647) = true ∧ Instr.wellFormed (.bofe true 31 4294967295) = true
    ∧ Instr.wellFormed (.bofd false 31 255) = true ∧ Instr.wellFormed (.cmpge ⟨127, 255⟩ ⟨-128, 0⟩) = true
    ∧ Instr.wellFormed .reservedF = true := by decide
theorem witness_EncodeOfDecodeRestoresReadPorts :
    ∀ op : BitVec 4, op = 0x1 ∨ op = 0x2 ∨ op = 0x3 ∨ op = 0x4 ∨ op = 0x5 ∨ op = 0x8 ∨ op = 0x9 ∨ op = 0xA ∨ op
      = 0xB ∨ ReservedOp op := by unfold ReservedOp; decide
theorem witness_CommandImageIsOneToOne : (0 : Nat) < 2 ^ 74 ∧ 2 ^ 74 - 1 < 2 ^ 74 := by decide
theorem witness_BinSizeFollowsTheIntervalFormula : (31 : Nat) ≤ 31 ∧ (8 : Nat) < 9 ∧ ¬ (9 : Nat) < 9 := by decide
theorem witness_BofeTailIsABitSlice : (31 : Nat) ≤ 31 ∧ (7 : Nat) < 8 := by decide
theorem witness_AbsLogIsTheHighestMagnitudeBit :
    (1 : BitVec 32) ≠ 0 ∧ (0xFFFFFFFF : BitVec 32) ≠ 0 ∧ (0x80000000 : BitVec 32) ≠ 0
      ∧ (0x7FFFFFFF : BitVec 32) ≠ 0 := by decide
theorem witness_ExactTestInBits : (1 : BitVec 32) ≠ 0 ∧ (2 : BitVec 32) ≠ 0 ∧ (0x80000000 : BitVec 32) ≠ 0 :=
      by decide
theorem witness_ClassesPartitionTheIntegers :
    (IsInt32 (-2147483648) ∧ (-2147483648 : Int) ≠ 0 ∧ ∃ o, outputs (.cls (-2147483648)) base = some o)
    ∧ (IsInt32 2147483647 ∧ (2147483647 : Int) ≠ 0 ∧ ∃ o, outputs (.cls 2147483647) base = some o)
    ∧ (-2147483648 : Int) ≤ 2147483647 ∧ 1 ≤ 1 ∧ 2 ≤ 2 :=
      ⟨⟨by decide, by decide, _, rfl⟩, ⟨by decide, by decide, _, rfl⟩, by decide, by decide, by decide⟩
theorem witness_ClassifierConsequences :
    (IsInt32 (-2147483648) ∧ (-2147483648 : Int) ≠ 0 ∧ ∃ o e, outputs (.cls (-2147483648)) base = some o
      ∧ outputs (.enc (-2147483648)) base = some e ∧ o.cExact = true)
    ∧ (IsInt32 (1) ∧ (1 : Int) ≠ 0 ∧ ∃ o e, outputs (.cls (1)) base = some o ∧ outputs (.enc (1)) base = some e
      ∧ o.cExact = false)
    ∧ (IsInt32 (-1) ∧ (-1 : Int) ≠ 0 ∧ ∃ o e, outputs (.cls (-1)) base = some o ∧ outputs (.enc (-1)) base
      = some e ∧ o.cExact = false)
    ∧ (IsInt32 (2147483647) ∧ (2147483647 : Int) ≠ 0 ∧ ∃ o e, outputs (.cls (2147483647)) base = some o
      ∧ outputs (.enc (2147483647)) base = some e ∧ o.cExact = false) :=
      ⟨⟨by decide, by decide, _, _, rfl, rfl, rfl⟩, ⟨by decide, by decide, _, _, rfl, rfl, rfl⟩,
      ⟨by decide, by decide, _, _, rfl, rfl, rfl⟩, ⟨by decide, by decide, _, _, rfl, rfl, rfl⟩⟩
theorem witness_EncLogRange :
    IsInt32 (-2147483648) ∧ IsInt32 (-1073741825) ∧ IsInt32 1073741824 ∧ IsInt32 2147483647 := by decide
theorem witness_EncTailClosedForm_positive :
    (IsInt32 (1) ∧ IsFloorLog2 (1 : Int).natAbs 0 ∧ ¬ (1 ≤ 0 ∧ (1 : Int).natAbs = 2 ^ 0)) ∧ (IsInt32 (3)
      ∧ IsFloorLog2 (3 : Int).natAbs 1 ∧ ¬ (1 ≤ 1 ∧ (3 : Int).natAbs = 2 ^ 1))
    ∧ (IsInt32 (511) ∧ IsFloorLog2 (511 : Int).natAbs 8 ∧ ¬ (1 ≤ 8 ∧ (511 : Int).natAbs = 2 ^ 8))
      ∧ (IsInt32 (513) ∧ IsFloorLog2 (513 : Int).natAbs 9 ∧ ¬ (1 ≤ 9 ∧ (513 : Int).natAbs = 2 ^ 9))
    ∧ (IsInt32 (2147483647) ∧ IsFloorLog2 (2147483647 : Int).natAbs 30 ∧ ¬ (1 ≤ 30 ∧ (2147483647 : Int).natAbs
      = 2 ^ 30)) := by decide
theorem witness_EncTailClosedForm_negative :
    (IsInt32 (-1) ∧ IsFloorLog2 (-1 : Int).natAbs 0 ∧ ¬ (1 ≤ 0 ∧ (-1 : Int).natAbs = 2 ^ 0)) ∧ (IsInt32 (-3)
      ∧ IsFloorLog2 (-3 : Int).natAbs 1 ∧ ¬ (1 ≤ 1 ∧ (-3 : Int).natAbs = 2 ^ 1))
    ∧ (IsInt32 (-511) ∧ IsFloorLog2 (-511 : Int).natAbs 8 ∧ ¬ (1 ≤ 8 ∧ (-511 : Int).natAbs = 2 ^ 8))
      ∧ (IsInt32 (-513) ∧ IsFloorLog2 (-513 : Int).natAbs 9 ∧ ¬ (1 ≤ 9 ∧ (-513 : Int).natAbs = 2 ^ 9))
    ∧ (IsInt32 (-2147483647) ∧ IsFloorLog2 (-2147483647 : Int).natAbs 30 ∧ ¬ (1 ≤ 30 ∧ (-2147483647 : Int).natAbs
      = 2 ^ 30)) := by decide
theorem witness_TailOverflowExactlyInTheNearHalf :
    (IsInt32 (-768) ∧ IsFloorLog2 (-768 : Int).natAbs 9 ∧ ¬ (1 ≤ 9 ∧ (-768 : Int).natAbs = 2 ^ 9))
      ∧ (IsInt32 (-769) ∧ IsFloorLog2 (-769 : Int).natAbs 9 ∧ ¬ (1 ≤ 9 ∧ (-769 : Int).natAbs = 2 ^ 9))
    ∧ (IsInt32 (-513) ∧ IsFloorLog2 (-513 : Int).natAbs 9 ∧ ¬ (1 ≤ 9 ∧ (-513 : Int).natAbs = 2 ^ 9))
      ∧ (IsInt32 (1023) ∧ IsFloorLog2 (1023 : Int).natAbs 9 ∧ ¬ (1 ≤ 9 ∧ (1023 : Int).natAbs = 2 ^ 9)) := by decide
theorem witness_CanonicalWordsAreTheImageOfEnc :
    ∃ (x : Int) (s : State) (o : OutPorts), IsInt32 x ∧ outputs (.enc x) s = some o ∧ o.word = ⟨-31, 255⟩ :=
      ⟨-1073741825, base, _, by decide, rfl, by rfl⟩
/-- Both ends of every row of the table of R139, with the integers of V-ENC and R139 that give them. -/
theorem witness_CanonicalWordsAreTheImageOfEnc_rows :
    ∀ p ∈ ([(0, ⟨0, 0⟩), (1, ⟨0, 1⟩), (2, ⟨1, 0⟩), (3, ⟨1, 1⟩), (256, ⟨8, 0⟩), (511, ⟨8, 255⟩), (512, ⟨9, 0⟩),
      (1023, ⟨9, 255⟩), (1073741824, ⟨30, 0⟩), (2147483647, ⟨30, 255⟩), (-2, ⟨-1, 0⟩), (-1, ⟨-1, 1⟩), (-4, ⟨-2,
      0⟩), (-3, ⟨-2, 1⟩), (-512, ⟨-9, 0⟩), (-257, ⟨-9, 255⟩), (-1024, ⟨-10, 0⟩), (-513, ⟨-10, 255⟩), (-2147483648,
      ⟨-31, 0⟩), (-1073741825, ⟨-31, 255⟩)] : List (Int × CodeWord)),
    IsInt32 p.1 ∧ (outputs (.enc p.1) base).map OutPorts.word = some p.2 := by decide
theorem witness_WhichIntegersShareACodeWord_positive :
    9 ≤ 9 ∧ IsInt32 1000 ∧ IsInt32 1001 ∧ IsFloorLog2 (1000 : Int).natAbs 9 ∧ IsFloorLog2 (1001 : Int).natAbs 9
    ∧ (∃ o, outputs (.enc (1000)) base = some o) ∧ (∃ o, outputs (.enc (1001)) base = some o) :=
      ⟨by decide, by decide, by decide, by decide, by decide, ⟨_, rfl⟩, ⟨_, rfl⟩⟩
theorem witness_WhichIntegersShareACodeWord_negative :
    9 ≤ 9 ∧ IsInt32 (-513) ∧ IsInt32 (-769) ∧ (2 ^ 9 < (-513 : Int).natAbs ∧ (-513 : Int).natAbs < 2 ^ (9 + 1))
    ∧ (2 ^ 9 < (-769 : Int).natAbs ∧ (-769 : Int).natAbs < 2 ^ (9 + 1)) ∧ (∃ o, outputs (.enc (-513)) base
      = some o) ∧ (∃ o, outputs (.enc (-769)) base = some o) :=
      ⟨by decide, by decide, by decide, by decide, by decide, ⟨_, rfl⟩, ⟨_, rfl⟩⟩
theorem witness_WhichIntegersShareACodeWord_power :
    9 ≤ 30 ∧ IsInt32 (-2 ^ (30 + 1)) ∧ (2 ^ 30 < (-2147483647 : Int).natAbs
      ∧ (-2147483647 : Int).natAbs < 2 ^ (30 + 1))
    ∧ (∃ o, outputs (.enc (-2147483647)) base = some o) ∧ ∃ o, outputs (.enc (-2 ^ (30 + 1))) base = some o :=
      ⟨by decide, by decide, by decide, ⟨_, rfl⟩, ⟨_, rfl⟩⟩
theorem witness_EncComposesFromClsAndBofe :
    IsInt32 (-600) ∧ (∃ t, exec (.cls (-600)) base = .next t ∧ t.out.cExact = false)
    ∧ IsInt32 (-2147483648) ∧ ∃ t, exec (.cls (-2147483648)) base = .next t ∧ t.out.cExact = true :=
      ⟨by decide, ⟨_, rfl, rfl⟩, by decide, ⟨_, rfl, rfl⟩⟩
theorem witness_DecAcceptsExactlyWhatFits :
    CodeWord.WellFormed ⟨30, 255⟩ ∧ CodeWord.WellFormed ⟨31, 0⟩ ∧ CodeWord.WellFormed ⟨-31, 255⟩
      ∧ CodeWord.WellFormed ⟨-32, 0⟩
    ∧ CodeWord.WellFormed ⟨-128, 0⟩ ∧ CodeWord.WellFormed ⟨127, 255⟩ := by decide
theorem witness_DecodedValueBounds :
    [-31, -9, -8, -1, 0, 8, 9, 30].all (fun log : Int => decide (-31 ≤ log ∧ log ≤ 30)) = true ∧ 255 ≤ 255 :=
      by decide
theorem witness_DecComposesFromBofd :
    ((-31 : Int) ≤ -31 ∧ (-31 : Int) ≤ 30 ∧ 255 ≤ 255) ∧ ((-31 : Int) ≤ 30 ∧ (30 : Int) ≤ 30 ∧ 0 ≤ 255) := by decide
theorem witness_ExactRoundTripRange :
    (IsInt32 1000 ∧ RoundTripGives base (1000) (1000)) ∧ (IsInt32 (-1000) ∧ RoundTripGives base (-1000) (-976))
    ∧ IsInt32 (-2147483648) ∧ IsInt32 512 ∧ IsInt32 513 :=
      ⟨⟨by decide, ⟨_, _, rfl, rfl, rfl, rfl, by rfl⟩⟩, ⟨by decide, ⟨_, _, rfl, rfl, rfl, rfl, by rfl⟩⟩,
      by decide, by decide, by decide⟩
theorem witness_PositiveRoundTripClearsLowBits :
    (-512 ≤ (-512 : Int) ∧ (512 : Int) ≤ 512) ∧ (IsInt32 513 ∧ (512 : Int) < 513 ∧ IsFloorLog2 (513 : Int).natAbs 9)
    ∧ (IsInt32 2147483647 ∧ IsFloorLog2 (2147483647 : Int).natAbs 30) := by decide
theorem witness_NegativeRoundTripError :
    (IsInt32 (-513) ∧ (-513 : Int) < -512 ∧ IsFloorLog2 (-513 : Int).natAbs 9 ∧ (-513 : Int).natAbs ≠ 2 ^ 9)
    ∧ (IsInt32 (-769) ∧ (-769 : Int) < -512 ∧ IsFloorLog2 (-769 : Int).natAbs 9 ∧ (-769 : Int).natAbs ≠ 2 ^ 9)
    ∧ (IsInt32 (-768) ∧ (-768 : Int) < -512 ∧ IsFloorLog2 (-768 : Int).natAbs 9 ∧ (-768 : Int).natAbs ≠ 2 ^ 9)
    ∧ (IsInt32 (-2147483647) ∧ (-2147483647 : Int) < -512 ∧ IsFloorLog2 (-2147483647 : Int).natAbs 30
      ∧ (-2147483647 : Int).natAbs ≠ 2 ^ 30) := by decide
theorem witness_ComparisonLaws :
    (verdict (.cmple ⟨0, 0⟩ ⟨0, 1⟩) base = some true ∧ verdict (.cmple ⟨0, 1⟩ ⟨0, 2⟩) base = some true)
    ∧ (verdict (.cmplt ⟨-1, 1⟩ ⟨-1, 0⟩) base = some true ∧ verdict (.cmplt ⟨-1, 0⟩ ⟨0, 0⟩) base = some true) :=
      by decide
theorem witness_ComparatorLogicForm :
    (⟨0x8, 0, 0x80, 0, 0x7F, 0, false, 0⟩ : Command).op = 0x8 ∧ (⟨0x9, 0, 0, 0, 0, 1, false, 0⟩ : Command).op
      = 0x9 := by decide
theorem witness_ComparatorAgainstIntegerOrder_agrees :
    (IsInt32 (-2147483648) ∧ IsInt32 (2147483647) ∧ (-2147483648 : Int) < 2147483647
      ∧ ∃ o p, outputs (.enc (-2147483648)) base = some o ∧ outputs (.enc (2147483647)) base = some p
      ∧ o.word.log ≠ p.word.log)
    ∧ (IsInt32 (1073741824) ∧ IsInt32 (2147483647) ∧ (1073741824 : Int) < 2147483647
      ∧ ∃ o p, outputs (.enc (1073741824)) base = some o ∧ outputs (.enc (2147483647)) base = some p ∧ o.word.log
      = p.word.log ∧ 0 < o.word.log ∧ o.word.tail ≠ p.word.tail) :=
      ⟨⟨by decide, by decide, by decide, _, _, rfl, rfl, by decide⟩,
      ⟨by decide, by decide, by decide, _, _, rfl, rfl, by decide⟩⟩
theorem witness_ComparatorAgainstIntegerOrder_ties :
    (IsInt32 (1000) ∧ IsInt32 (1001) ∧ (1000 : Int) < 1001 ∧ ∃ o p, outputs (.enc (1000)) base = some o
      ∧ outputs (.enc (1001)) base = some p ∧ o.word = p.word)
    ∧ (IsInt32 (0) ∧ IsInt32 (1) ∧ (0 : Int) < 1 ∧ ∃ o p, outputs (.enc (0)) base = some o
      ∧ outputs (.enc (1)) base = some p ∧ (0 : Int) = 0 ∧ (1 : Int) = 1) :=
      ⟨⟨by decide, by decide, by decide, _, _, rfl, rfl, by decide⟩,
      ⟨by decide, by decide, by decide, _, _, rfl, rfl, by decide⟩⟩
theorem witness_ComparatorAgainstIntegerOrder_reversed :
    (IsInt32 (-512) ∧ IsInt32 (-511) ∧ (-512 : Int) < -511 ∧ ∃ o p, outputs (.enc (-512)) base = some o
      ∧ outputs (.enc (-511)) base = some p ∧ o.word.log = p.word.log ∧ o.word.log < 0 ∧ (-512 : Int) ≤ -512) :=
      ⟨by decide, by decide, by decide, _, _, rfl, rfl, by decide⟩
theorem witness_StoredWordIsLogThenTail : CodeWord.WellFormed ⟨-128, 255⟩ ∧ CodeWord.WellFormed ⟨127, 0⟩ := by decide
theorem witness_StoredArrayIsPacked :
    (∀ v ∈ [CodeWord.mk 9 244, ⟨-3, 0⟩], v.WellFormed) ∧ [CodeWord.mk 9 244, ⟨-3, 0⟩][1]? = some ⟨-3, 0⟩ := by decide
theorem witness_MacrosRunDecThenTheHostThenEnc_statuses :
    (CodeWord.WellFormed ⟨30, 255⟩ ∧ ∃ o, outputs (.dec ⟨30, 255⟩) base = some o ∧ o.status = okCode)
    ∧ (CodeWord.WellFormed ⟨-31, 0⟩ ∧ ∃ o, outputs (.dec ⟨-31, 0⟩) base = some o ∧ o.status = okCode)
    ∧ (CodeWord.WellFormed ⟨31, 0⟩ ∧ ∃ o, outputs (.dec ⟨31, 0⟩) base = some o ∧ o.status = 3)
    ∧ (CodeWord.WellFormed ⟨-128, 0⟩ ∧ ∃ o, outputs (.dec ⟨-128, 0⟩) base = some o ∧ o.status = 3) :=
      ⟨⟨by decide, _, rfl, rfl⟩, ⟨by decide, _, rfl, rfl⟩, ⟨by decide, _, rfl, rfl⟩, ⟨by decide, _, rfl, rfl⟩⟩
theorem witness_MacrosRunDecThenTheHostThenEnc_policies :
    (qopD .add (.int 300) (.word ⟨7, 83⟩) = .ok 511 ∧ IsInt32 511 ∧ (∃ o, outputs (.enc (511)) base = some o))
    ∧ qopD .mul (.word ⟨31, 0⟩) (.int 2) = .error (.status .logRange)
    ∧ IsInt32 (MacroOp.add.apply 2147483646 1) ∧ ¬ IsInt32 (MacroOp.add.apply 2147483647 1) :=
      ⟨⟨by rfl, by decide, _, rfl⟩, by rfl, by decide, by decide⟩
theorem witness_MacrosAreExactOnTheExactRange_wide :
    IsInt32 1073741824 ∧ RoundTripGives base (1073741824) (1073741824) ∧ (∃ o, outputs (.enc (1073741824)) base
      = some o)
    ∧ ¬ IsInt32 (MacroOp.add.apply 1073741824 1073741824) :=
      ⟨by decide, ⟨_, _, rfl, rfl, rfl, rfl, by rfl⟩, ⟨_, rfl⟩, by decide⟩
theorem witness_MacrosAreExactOnTheExactRange :
    IsInt32 300 ∧ IsInt32 211 ∧ RoundTripGives base (300) (300) ∧ RoundTripGives base (211) (211)
    ∧ (∃ o, outputs (.enc (300)) base = some o) ∧ (∃ o, outputs (.enc (211)) base = some o)
    ∧ IsInt32 (MacroOp.add.apply 300 211) ∧ ∃ o, outputs (.enc (MacroOp.add.apply 300 211)) base = some o :=
      ⟨by decide, by decide, ⟨_, _, rfl, rfl, rfl, rfl, by rfl⟩, ⟨_, _, rfl, rfl, rfl, rfl, by rfl⟩, ⟨_, rfl⟩,
      ⟨_, rfl⟩, by decide, _, rfl⟩

end Sys2Proof.Tests
end

section
/-! Stored code words (spec/20_memory.md). -/

namespace Sys2Proof.Machine

/-- R40: the two bytes at which a well-formed code word is stored read back as that word. -/
theorem wordOfBytes_sext_zext {w : CodeWord} (h : w.WellFormed) :
    wordOfBytes (sext 8 w.log) (zext 8 w.tail) = w := by
  obtain ⟨hlo, hhi, htail⟩ := h
  rw [wordOfBytes, sint_sext8 ⟨hlo, hhi⟩, uint_zext8 htail]

/-- Settles O46: `log` and `tail` lie in the ranges of their bytes, so each byte gives its value back. -/
theorem storedWordIsLogThenTail : Obligations.StoredWordIsLogThenTail := by
  intro w h
  have hread := wordOfBytes_sext_zext h
  obtain ⟨hlo, hhi, htail⟩ := h
  exact ⟨sext 8 w.log, zext 8 w.tail, rfl, sint_sext8 ⟨hlo, hhi⟩, uint_zext8 htail, hread⟩

end Sys2Proof.Machine
end

section
/-! The op code table (spec/30_encoding.md): which operation each value of `op` selects, which of them are reserved, and what
a decoded command leaves unread. -/

namespace Sys2Proof

/-! ## One equation per row of R68 -/

/-- R68: a known value of `op` may be written into the command; with a numeral there, `decode` reduces to its row. -/
theorem decode_of_op {c : Command} {op : BitVec 4} (h : c.op = op) : decode c = decode { c with op := op } := by rw [← h]

theorem decode_reserved0 {c : Command} (h : c.op = 0x0) : decode c = .reserved0 := decode_of_op h

theorem decode_enc {c : Command} (h : c.op = 0x1) : decode c = .enc (sint c.xIn) := decode_of_op h

theorem decode_dec {c : Command} (h : c.op = 0x2) : decode c = .dec c.wordA := decode_of_op h

theorem decode_cls {c : Command} (h : c.op = 0x3) : decode c = .cls (sint c.xIn) := decode_of_op h

theorem decode_bofe {c : Command} (h : c.op = 0x4) : decode c = .bofe c.sNeg (uint c.sE) (uint c.xIn) := decode_of_op h

theorem decode_bofd {c : Command} (h : c.op = 0x5) : decode c = .bofd c.sNeg (uint c.sE) (uint c.aTail) := decode_of_op h

theorem decode_reserved6 {c : Command} (h : c.op = 0x6) : decode c = .reserved6 := decode_of_op h

theorem decode_reserved7 {c : Command} (h : c.op = 0x7) : decode c = .reserved7 := decode_of_op h

theorem decode_cmplt {c : Command} (h : c.op = 0x8) : decode c = .cmplt c.wordA c.wordB := decode_of_op h

theorem decode_cmple {c : Command} (h : c.op = 0x9) : decode c = .cmple c.wordA c.wordB := decode_of_op h

theorem decode_cmpgt {c : Command} (h : c.op = 0xA) : decode c = .cmpgt c.wordA c.wordB := decode_of_op h

theorem decode_cmpge {c : Command} (h : c.op = 0xB) : decode c = .cmpge c.wordA c.wordB := decode_of_op h

theorem decode_reservedC {c : Command} (h : c.op = 0xC) : decode c = .reservedC := decode_of_op h

theorem decode_reservedD {c : Command} (h : c.op = 0xD) : decode c = .reservedD := decode_of_op h

theorem decode_reservedE {c : Command} (h : c.op = 0xE) : decode c = .reservedE := decode_of_op h

theorem decode_reservedF {c : Command} (h : c.op = 0xF) : decode c = .reservedF := decode_of_op h

/-- Settles O17, row by row of R68. -/
theorem opSelectsTheOperation : Obligations.OpSelectsTheOperation := fun _ =>
  ⟨decode_reserved0, decode_enc, decode_dec, decode_cls, decode_bofe, decode_bofd, decode_reserved6, decode_reserved7,
    decode_cmplt, decode_cmple, decode_cmpgt, decode_cmpge, decode_reservedC, decode_reservedD, decode_reservedE,
    decode_reservedF⟩

/-! ## What each format reads (R64): commands alike on those ports decode alike -/

section Formats

variable {c c' : Command}

theorem decode_congr_formatX (h : c.op = 0x1 ∨ c.op = 0x3) (hop : c'.op = c.op) (hx : c'.xIn = c.xIn) :
    decode c' = decode c := by
  rcases h with h | h
  · rw [decode_enc h, decode_enc (hop.trans h), hx]
  · rw [decode_cls h, decode_cls (hop.trans h), hx]

theorem decode_congr_formatQ (h : c.op = 0x2) (hop : c'.op = c.op) (ha : c'.wordA = c.wordA) : decode c' = decode c := by
  rw [decode_dec h, decode_dec (hop.trans h), ha]

theorem decode_congr_formatQQ (h : c.op = 0x8 ∨ c.op = 0x9 ∨ c.op = 0xA ∨ c.op = 0xB) (hop : c'.op = c.op)
    (ha : c'.wordA = c.wordA) (hb : c'.wordB = c.wordB) : decode c' = decode c := by
  rcases h with h | h | h | h
  · rw [decode_cmplt h, decode_cmplt (hop.trans h), ha, hb]
  · rw [decode_cmple h, decode_cmple (hop.trans h), ha, hb]
  · rw [decode_cmpgt h, decode_cmpgt (hop.trans h), ha, hb]
  · rw [decode_cmpge h, decode_cmpge (hop.trans h), ha, hb]

theorem decode_congr_formatSE (h : c.op = 0x4) (hop : c'.op = c.op) (hneg : c'.sNeg = c.sNeg) (he : c'.sE = c.sE)
    (hx : c'.xIn = c.xIn) : decode c' = decode c := by
  rw [decode_bofe h, decode_bofe (hop.trans h), hneg, he, hx]

theorem decode_congr_formatSD (h : c.op = 0x5) (hop : c'.op = c.op) (hneg : c'.sNeg = c.sNeg) (he : c'.sE = c.sE)
    (ht : c'.aTail = c.aTail) : decode c' = decode c := by
  rw [decode_bofd h, decode_bofd (hop.trans h), hneg, he, ht]

/-- R72: a reserved op code reads no operand port. -/
theorem decode_congr_reserved (h : Machine.ReservedOp c.op) (hop : c'.op = c.op) : decode c' = decode c := by
  rcases h with h | h | h | h | h | h | h
  · rw [decode_reserved0 h, decode_reserved0 (hop.trans h)]
  · rw [decode_reserved6 h, decode_reserved6 (hop.trans h)]
  · rw [decode_reserved7 h, decode_reserved7 (hop.trans h)]
  · rw [decode_reservedC h, decode_reservedC (hop.trans h)]
  · rw [decode_reservedD h, decode_reservedD (hop.trans h)]
  · rw [decode_reservedE h, decode_reservedE (hop.trans h)]
  · rw [decode_reservedF h, decode_reservedF (hop.trans h)]

end Formats

/-! ## The reserved op codes (R72) -/

/-- R72: the operations that mean nothing. -/
abbrev reservedOperations : List Instr :=
  [.reserved0, .reserved6, .reserved7, .reservedC, .reservedD, .reservedE, .reservedF]

theorem decode_mem_reservedOperations_iff (c : Command) :
    decode c ∈ reservedOperations ↔ Machine.ReservedOp c.op := by
  refine op_cases c fun k hk hop => ?_
  rw [decode_of_op hop, hop]
  interval_cases k <;> simp [decode, Machine.ReservedOp]

end Sys2Proof

namespace Sys2Proof.Machine

/-- R202: only a reserved operation is answered `ILLEGAL_OP`. -/
theorem status_eq_illegalOp_iff (i : Instr) : (responseOf i).status = 1 ↔ i ∈ reservedOperations := by
  cases i with
  | dec a => rw [status_dec]; split <;> simp
  | cls x => rw [status_cls]; split <;> simp
  | _ => simp [responseOf, encResponse, bofeResponse, bofdResponse, Response.status, okCode, FaultCode.code]

/-- R202: a command is answered `ILLEGAL_OP` exactly when its op code is reserved. -/
theorem exec_decode_illegalOp_iff {c : Command} {s t : State} (h : exec (decode c) s = .next t) :
    t.out.status = 1 ↔ ReservedOp c.op := by
  rw [exec_next_iff.1 h, respond_out, drive_status, status_eq_illegalOp_iff, decode_mem_reservedOperations_iff]

/-- Settles O11: by format, the changed command decodes alike; illegality is that of the op code, which both commands share. -/
theorem unreadPortsAreIgnored : Obligations.UnreadPortsAreIgnored := by
  intro s c x la ta lb tb n e
  have answersAlike {c' : Command} (h : decode c' = decode c) : exec (decode c') s = exec (decode c) s := by rw [h]
  exact ⟨fun h => answersAlike (decode_congr_formatX h rfl rfl),
    fun h => answersAlike (decode_congr_formatQ h rfl rfl),
    fun h => answersAlike (decode_congr_formatQQ h rfl rfl rfl),
    fun h => answersAlike (decode_congr_formatSE h rfl rfl rfl rfl),
    fun h => answersAlike (decode_congr_formatSD h rfl rfl rfl rfl),
    fun h => answersAlike (decode_congr_reserved h rfl),
    fun _ _ ht ht' => (exec_decode_illegalOp_iff ht).trans (exec_decode_illegalOp_iff ht').symm⟩

/-! ## The comparator's op codes (R69) -/

/-- R69: the four op codes with `op[3:2] = 10`. -/
theorem comparatorOp_cases {op : BitVec 4} (h : op.extractLsb' 2 2 = 0b10) :
    op = 0x8 ∨ op = 0x9 ∨ op = 0xA ∨ op = 0xB := by
  revert op
  decide

theorem keyTie_comm (a b : CodeWord) : KeyTie a b ↔ KeyTie b a := by
  rw [← key_eq_iff, ← key_eq_iff, eq_comm]

/-- A comparison is answered `OK`, with the flag its response carries. -/
theorem exec_of_responseOf_cmp {i : Instr} {f : Bool} (h : responseOf i = .cmp f) (s : State) :
    ∃ t, exec i s = .next t ∧ t.out.status = okCode ∧ t.out.flag = f := by
  refine ⟨s.respond (.cmp f), ?_, rfl, rfl⟩
  rw [exec_eq_answer, h]

/-- R69: the flag a comparator's command answers, by the two low bits of its op code. -/
theorem responseOf_decode_comparator {c : Command} (h : c.op.extractLsb' 2 2 = 0b10) :
    ∃ f, responseOf (decode c) = .cmp f
      ∧ (f = true ↔
          (if c.op.getLsbD 1 then KeyBelow c.wordB c.wordA else KeyBelow c.wordA c.wordB)
          ∨ c.op.getLsbD 0 = true ∧ KeyTie c.wordA c.wordB) := by
  rcases comparatorOp_cases h with hop | hop | hop | hop
  · refine ⟨keyLt c.wordA c.wordB, by rw [decode_cmplt hop]; rfl, ?_⟩
    simp [hop, keyLt_iff]
  · refine ⟨keyLe c.wordA c.wordB, by rw [decode_cmple hop]; rfl, ?_⟩
    simp [hop, keyLe_iff]
  · refine ⟨keyLt c.wordB c.wordA, by rw [decode_cmpgt hop]; rfl, ?_⟩
    simp [hop, keyLt_iff]
  · refine ⟨keyLe c.wordB c.wordA, by rw [decode_cmpge hop]; rfl, ?_⟩
    simp [hop, keyLe_iff, keyTie_comm c.wordB c.wordA]

/-- Settles O18: the four op codes answer `<`, `<=`, and the two with the operands exchanged, `KeyTie` being symmetric. -/
theorem comparatorOpBitsSelectTheRelation : Obligations.ComparatorOpBitsSelectTheRelation := by
  intro s c h
  obtain ⟨f, hf, hflag⟩ := responseOf_decode_comparator h
  obtain ⟨t, hexec, hstatus, rfl⟩ := exec_of_responseOf_cmp hf s
  exact ⟨t, hexec, hstatus, hflag⟩

end Sys2Proof.Machine
end

section
/-! The classifier (spec/40_classifier.md): what the ports read as after `CLS` of a non-zero integer, and `abs_log` in
bits. -/

namespace Sys2Proof.Machine

/-! ## The ports after `CLS` (R97) -/

/-- R97: the response to a non-zero `x` whose magnitude has its highest set bit at `a`. -/
theorem responseOf_cls {x : Int} {a : Nat} (h : IsFloorLog2 x.natAbs a) :
    responseOf (.cls x) =
      .cls (sext 8 (classLog x a (decide (classInterval a = x.natAbs)))) (zext 32 (classInterval a)) (decide (x < 0))
        (decide (classInterval a = x.natAbs)) (zext 5 a) := by
  rw [responseOf, lmc_of (ne_zero_of_isFloorLog2 h) h]
  rfl

/-- R96 with the exact test written out. -/
theorem classLog_eq {x : Int} {a : Nat} (h : IsFloorLog2 x.natAbs a) :
    classLog x a (decide (classInterval a = x.natAbs))
      = if a ≠ 0 ∧ x.natAbs = 2 ^ a then (if x < 0 then -(a : Int) else a)
        else if 0 < x then (a : Int) else -(a : Int) - 1 := by
  simp only [classLog, decide_eq_true_eq, exact_iff h]
  congr 1
  rcases lt_or_gt_of_ne (ne_zero_of_isFloorLog2 h) with hneg | hpos
  · simp [sgn_of_neg hneg, hneg]
  · simp [sgn_of_pos hpos, hpos.not_gt]

/-- R94: the quirk only lowers the interval. -/
theorem classInterval_le (a : Nat) : classInterval a ≤ 2 ^ a := by
  unfold classInterval
  split
  · exact Nat.zero_le _
  · exact le_rfl

section Ports

variable {x : Int} {a : Nat} (s : State)

theorem qLog_respond_cls (hx : IsInt32 x) (h : IsFloorLog2 x.natAbs a) :
    sint (s.respond (responseOf (.cls x))).out.qLog = classLog x a (decide (classInterval a = x.natAbs)) := by
  obtain ⟨hlo, hhi⟩ := classLog_bounds hx h
  rw [responseOf_cls h]
  exact sint_sext8 ⟨by omega, by omega⟩

/-- R94: the interval of a 32-bit operand fits `y_out`. -/
theorem yOut_respond_cls (hx : IsInt32 x) (h : IsFloorLog2 x.natAbs a) :
    uint (s.respond (responseOf (.cls x))).out.yOut = classInterval a := by
  have hfits : classInterval a < 2 ^ 32 :=
    calc classInterval a ≤ 2 ^ a := classInterval_le a
      _ < 2 ^ 32 := Nat.pow_lt_pow_right (by decide) (Nat.lt_succ_of_le (absLog_le hx h))
  rw [responseOf_cls h]
  exact uint_zext32 hfits

theorem cNeg_respond_cls (h : IsFloorLog2 x.natAbs a) :
    (s.respond (responseOf (.cls x))).out.cNeg = true ↔ x < 0 := by
  rw [responseOf_cls h]
  exact decide_eq_true_iff

theorem cExact_respond_cls (h : IsFloorLog2 x.natAbs a) :
    (s.respond (responseOf (.cls x))).out.cExact = true ↔ a ≠ 0 ∧ x.natAbs = 2 ^ a := by
  rw [responseOf_cls h, ← exact_iff h]
  exact decide_eq_true_iff

theorem cAbsLog_respond_cls (hx : IsInt32 x) (h : IsFloorLog2 x.natAbs a) :
    uint (s.respond (responseOf (.cls x))).out.cAbsLog = a := by
  rw [responseOf_cls h]
  exact uint_zext5 (absLog_le hx h)

theorem status_respond_cls (h : x ≠ 0) : (s.respond (responseOf (.cls x))).out.status = okCode := by
  rw [respond_out, drive_status, status_cls, if_neg h]
  rfl

end Ports

/-- Settles O3: port by port, each of the classifier's values fits the port that carries it. -/
theorem clsClassifiesOrReportsZero : Obligations.ClsClassifiesOrReportsZero := by
  refine ⟨fun _ => decode_cls, fun s => ⟨_, exec_eq_answer (.cls 0) s, rfl⟩, fun s x a hx hne ha => ?_⟩
  exact ⟨_, exec_eq_answer _ s, status_respond_cls s hne, (qLog_respond_cls s hx ha).trans (classLog_eq ha),
    yOut_respond_cls s hx ha, cNeg_respond_cls s ha, cExact_respond_cls s ha, cAbsLog_respond_cls s hx ha⟩

/-! ## `abs_log` in bits (R93) -/

/-- R93: the highest set bit of a non-zero word is found by counting its leading zeros. -/
theorem isFloorLog2_clz {v : BitVec 32} (hv : v ≠ 0) : IsFloorLog2 (uint v) (31 - uint v.clz) := by
  have hlow : 2 ^ (31 - uint v.clz) ≤ uint v := BitVec.two_pow_sub_clz_le_toNat_of_ne_zero (by decide) hv
  have hhigh : uint v < 2 ^ (32 - uint v.clz) := BitVec.toNat_lt_two_pow_sub_clz
  have hclz : uint v.clz < 32 := BitVec.clz_lt_iff_ne_zero.2 hv
  exact ⟨hlow, by rwa [show 31 - uint v.clz + 1 = 32 - uint v.clz by omega]⟩

/-- R92, R93: `abs_log` of a non-zero port value, from the leading zeros of its magnitude word. -/
theorem isFloorLog2_natAbs_sint {v : BitVec 32} (hv : v ≠ 0) :
    IsFloorLog2 (sint v).natAbs (31 - uint (BitVec.clz (if v.msb then ~~~v + 1 else v))) := by
  have hmag := uint_neg_of_msb v
  have hne : (if v.msb then ~~~v + 1 else v) ≠ 0 := by
    intro hzero
    rw [hzero] at hmag
    exact hv ((sint_eq_zero_iff v).1 (Int.natAbs_eq_zero.1 hmag.symm))
  rw [← hmag]
  exact isFloorLog2_clz hne

theorem absLog_eq_zero_iff {x : Int} {a : Nat} (h : IsFloorLog2 x.natAbs a) : a = 0 ↔ x = 1 ∨ x = -1 := by
  constructor
  · rintro rfl
    obtain ⟨hlow, hhigh⟩ := h
    omega
  · rintro (rfl | rfl) <;> exact isFloorLog2_unique h (by decide)

/-- R93: bit 31 of the magnitude is set for the most negative operand only. -/
theorem absLog_eq_31_iff {x : Int} {a : Nat} (hx : IsInt32 x) (h : IsFloorLog2 x.natAbs a) :
    a = 31 ↔ x = -2 ^ 31 := by
  constructor
  · rintro rfl
    obtain ⟨hlow, -⟩ := h
    omega
  · rintro rfl
    exact isFloorLog2_unique h (by decide)

/-- Settles O26: the leading-zero count is `abs_log`, whose two extremes are those of the magnitude. -/
theorem absLogIsTheHighestMagnitudeBit : Obligations.AbsLogIsTheHighestMagnitudeBit := by
  intro s xIn hne
  have hx := isInt32_sint xIn
  have ha := isFloorLog2_natAbs_sint hne
  refine ⟨_, exec_eq_answer _ s, uint_neg_of_msb xIn, ?_⟩
  rw [cAbsLog_respond_cls s hx ha]
  exact ⟨rfl, absLog_eq_zero_iff ha, absLog_eq_31_iff hx ha⟩

end Sys2Proof.Machine
end

section
/-! The bin offset calculator (spec/41_bin_offset.md): what the ports read as after `BOFE` and `BOFD`, and the scaled-down tail
in bits. -/

namespace Sys2Proof.Machine

/-- R110: the largest bin shift is that of `2^31` on the positive side. -/
theorem sh_le (neg : Bool) {e : Nat} (he : e ≤ 31) : sh neg e ≤ 23 := by
  rw [sh_eq]
  split_ifs <;> omega

/-- R115: the largest scaled-up offset is the largest tail at the largest bin shift. -/
theorem scaleUp_le (neg : Bool) {e tail : Nat} (he : e ≤ 31) (ht : tail ≤ 255) : scaleUp neg e tail ≤ 0x7F800000 := by
  rw [scaleUp_eq]
  calc tail * 2 ^ sh neg e ≤ 255 * 2 ^ 23 := Nat.mul_le_mul ht (Nat.pow_le_pow_right (by decide) (sh_le neg he))
    _ = 0x7F800000 := by norm_num

/-- R112: reduction modulo 256 keeps the low eight bits of the shifted offset, which are a slice of `raw`. -/
theorem zext_scaleDown (neg : Bool) (e : Nat) (raw : BitVec 32) :
    zext 8 (scaleDown neg e (uint raw)) = raw.extractLsb' (sh neg e) 8 :=
  BitVec.eq_of_toNat_eq (Nat.mod_mod _ _)

/-! ## The ports after `BOFE` (R114) and `BOFD` (R115) -/

section Ports

variable (s : State) (neg : Bool) {e : Nat}

theorem bShift_respond_bofe (raw : Nat) (he : e ≤ 31) :
    uint (s.respond (responseOf (.bofe neg e raw))).out.bShift = sh neg e :=
  uint_zext5 ((sh_le neg he).trans (by decide))

theorem qTail_respond_bofe (e raw : Nat) :
    uint (s.respond (responseOf (.bofe neg e raw))).out.qTail = raw / 2 ^ sh neg e % 256 :=
  (uint_zext8 (scaleDown_le neg e raw)).trans (scaleDown_eq neg e raw)

/-- R112 in bits: past bit 31 `BitVec.getLsbD` reads 0, as the slice does. -/
theorem getLsbD_qTail_respond_bofe (e : Nat) (raw : BitVec 32) {i : Nat} (hi : i < 8) :
    (s.respond (responseOf (.bofe neg e (uint raw)))).out.qTail.getLsbD i = raw.getLsbD (sh neg e + i) := by
  have hport : (s.respond (responseOf (.bofe neg e (uint raw)))).out.qTail = raw.extractLsb' (sh neg e) 8 :=
    zext_scaleDown neg e raw
  rw [hport, BitVec.getLsbD_extractLsb']
  simp [hi]

theorem bShift_respond_bofd (tail : Nat) (he : e ≤ 31) :
    uint (s.respond (responseOf (.bofd neg e tail))).out.bShift = sh neg e :=
  uint_zext5 ((sh_le neg he).trans (by decide))

theorem yOut_respond_bofd {tail : Nat} (he : e ≤ 31) (ht : tail ≤ 255) :
    uint (s.respond (responseOf (.bofd neg e tail))).out.yOut = scaleUp neg e tail :=
  uint_zext32 ((scaleUp_le neg he ht).trans_lt (by decide))

end Ports

/-- Settles O25: the tail port holds the slice of `raw` that starts at the bin shift. -/
theorem bofeTailIsABitSlice : Obligations.BofeTailIsABitSlice := by
  intro s neg e raw _
  rw [← sh_eq]
  exact ⟨_, exec_eq_answer _ s, rfl, qTail_respond_bofe s neg e _, fun _ hi => getLsbD_qTail_respond_bofe s neg e raw hi⟩

/-- Settles O4: the bin shift fits its five-bit port, and the scaled-down tail its eight bits. -/
theorem bofeScalesDown : Obligations.BofeScalesDown := by
  refine ⟨fun _ => decode_bofe, fun s neg e raw he _ => ?_⟩
  rw [← sh_eq]
  exact ⟨_, exec_eq_answer _ s, rfl, bShift_respond_bofe s neg raw he, qTail_respond_bofe s neg e raw⟩

/-- Settles O5: the scaled-up offset stays below `2^32`, so `y_out` carries it whole. -/
theorem bofdScalesUp : Obligations.BofdScalesUp := by
  refine ⟨fun _ => decode_bofd, fun s neg e tail he ht => ?_⟩
  have hport := yOut_respond_bofd s neg he ht
  rw [← sh_eq]
  exact ⟨_, exec_eq_answer _ s, rfl, bShift_respond_bofd s neg tail he, hport.trans (scaleUp_eq neg e tail),
    hport.trans_le (scaleUp_le neg he ht)⟩

end Sys2Proof.Machine
end

section
/-! The encoder (spec/42_encoder.md): what the ports read as after `ENC`, branch by branch of R130. -/

namespace Sys2Proof.Machine

/-! ## The interval and the bin size as R130 writes them -/

/-- R94: the classifier's interval as an integer. -/
theorem cast_classInterval (a : Nat) : (classInterval a : Int) = if a = 0 then 0 else 2 ^ a := by
  unfold classInterval
  split_ifs <;> simp

/-- R130 step 5: a power-of-two interval is scaled down to the power of two of the bin shift (R110); the quirk of R94 falls
below the threshold, as `2^0` does. -/
theorem binSizeOf_classInterval (neg : Bool) (a : Nat) : binSizeOf neg (classInterval a) = 2 ^ sh neg a := by
  by_cases hsmall : a < 9
  · have hbelow : classInterval a < 512 :=
      calc classInterval a ≤ 2 ^ a := classInterval_le a
        _ < 2 ^ 9 := Nat.pow_lt_pow_right (by decide) hsmall
    rw [sh_small neg hsmall, binSizeOf, if_pos hbelow, pow_zero]
  · have hlarge : 9 ≤ a := Nat.le_of_not_lt hsmall
    have hpow : classInterval a = 2 ^ a := if_neg (by omega)
    have habove : ¬ 2 ^ a < 512 := (Nat.pow_le_pow_right (by decide) hlarge : 2 ^ 9 ≤ 2 ^ a).not_gt
    rw [sh_large neg hlarge, hpow, binSizeOf, if_neg habove]
    cases neg
    · exact Nat.pow_div (by omega) (by decide)
    · exact Nat.pow_div hlarge (by decide)

/-! ## The code word of R130 in the rule's own arithmetic -/

section CodeWords

variable {x : Int} {a : Nat}

/-- R130 step 4, the sign written out. -/
theorem encodeInt_of_exact (h : IsFloorLog2 x.natAbs a) (he : a ≠ 0 ∧ x.natAbs = 2 ^ a) :
    encodeInt x = ⟨if x < 0 then -(a : Int) else a, 0⟩ := by
  have hlog : (encodeInt x).log = if x < 0 then -(a : Int) else a := by
    rw [encodeInt_log_eq h, classLog_eq h, if_pos he]
  rw [encodeInt_exact h he] at hlog ⊢
  rw [← hlog]

/-- R130 step 5 for `x > 0`: the offset is taken from the interval. -/
theorem encodeInt_of_pos (hx : 0 < x) (h : IsFloorLog2 x.natAbs a) (he : ¬ (a ≠ 0 ∧ x.natAbs = 2 ^ a)) :
    encodeInt x = ⟨a, (x - classInterval a).toNat / binSizeOf false (classInterval a) % 256⟩ := by
  have hoffset : (x - classInterval a).toNat = x.natAbs - classInterval a := by omega
  rw [encodeInt_pos hx h he, hoffset, binSizeOf_classInterval]

/-- R130 step 5 for `x < 0`: the offset is taken from the power of two beyond `|x|`. -/
theorem encodeInt_of_neg (hx : x < 0) (h : IsFloorLog2 x.natAbs a) (he : ¬ (a ≠ 0 ∧ x.natAbs = 2 ^ a)) :
    encodeInt x = ⟨-a - 1, (2 ^ (a + 1) + x).toNat / binSizeOf true (classInterval a) % 256⟩ := by
  have hcast : ((2 ^ (a + 1) : Nat) : Int) = 2 ^ (a + 1) := Nat.cast_pow 2 (a + 1)
  have hoffset : (2 ^ (a + 1) + x).toNat = 2 ^ (a + 1) - x.natAbs := by omega
  rw [encodeInt_neg hx h he, hoffset, binSizeOf_classInterval]

end CodeWords

/-! ## The ports after `ENC` -/

/-- The two fields of the answered code word, each from its own port. -/
theorem ports_respond_enc {x : Int} {w : CodeWord} (hx : IsInt32 x) (hw : encodeInt x = w) (s : State) :
    sint (s.respond (responseOf (.enc x))).out.qLog = w.log
      ∧ uint (s.respond (responseOf (.enc x))).out.qTail = w.tail := by
  have hword := (word_respond_enc hx s).trans hw
  exact ⟨congrArg CodeWord.log hword, congrArg CodeWord.tail hword⟩

/-- Settles O1: each branch of R130 gives a code word, and the result ports carry its two fields. -/
theorem encEncodesEveryInteger : Obligations.EncEncodesEveryInteger := by
  refine ⟨fun _ => decode_enc, fun s x hx => ?_⟩
  refine ⟨_, exec_eq_answer _ s, rfl, ?zero, fun a ha => ⟨?exact, ?pos, ?neg⟩⟩
  case zero =>
    rintro rfl
    exact ⟨rfl, rfl⟩
  case exact =>
    intro he
    obtain ⟨hlog, htail⟩ := ports_respond_enc hx (encodeInt_of_exact ha he) s
    exact ⟨hlog, BitVec.eq_of_toNat_eq htail⟩
  case pos =>
    intro he hpos
    rw [← cast_classInterval]
    exact ports_respond_enc hx (encodeInt_of_pos hpos ha he) s
  case neg =>
    intro he hneg
    exact ports_respond_enc hx (encodeInt_of_neg hneg ha he) s

end Sys2Proof.Machine
end

section
/-! The decoder (spec/43_decoder.md): what the ports read as after `DEC`, in R150's own arithmetic. -/

namespace Sys2Proof.Machine

/-- R150 step 2: the decoder's interval has no quirk, so at `e = 0` it is 1 where the classifier's is 0; both lie below the
threshold. -/
theorem binSizeOf_two_pow (neg : Bool) (e : Nat) : binSizeOf neg (2 ^ e) = 2 ^ sh neg e := by
  by_cases he : e = 0
  · subst he
    rfl
  · have hinterval : classInterval e = 2 ^ e := if_neg he
    rw [← hinterval, binSizeOf_classInterval]

/-- R150 step 3, the sign and the bin size written out. -/
theorem decodeInt_eq_binSizeOf (log : Int) (tail : Nat) :
    decodeInt ⟨log, tail⟩ = (if log < 0 then -1 else if log = 0 then 0 else 1) * 2 ^ log.natAbs
      + tail * binSizeOf (decide (log < 0)) (2 ^ log.natAbs) := by
  rw [decodeInt_eq, binSizeOf_two_pow, sgn, Nat.cast_mul]

/-! ## The status of `DEC` (R151) -/

section Status

variable {w : CodeWord} (s : State)

theorem status_respond_dec_of_mem (h : -31 ≤ w.log ∧ w.log ≤ 30) :
    (s.respond (responseOf (.dec w))).out.status = okCode := by
  rw [respond_out, drive_status, status_dec, if_pos h]
  rfl

theorem status_respond_dec_of_notMem (h : ¬ (-31 ≤ w.log ∧ w.log ≤ 30)) :
    (s.respond (responseOf (.dec w))).out.status = 3 := by
  rw [respond_out, drive_status, status_dec, if_neg h]

end Status

/-- Settles O2: outside the range of R151 the status is `LOG_RANGE`; within it the decoded integer fits `y_out`. -/
theorem decDecodesOrReportsLogRange : Obligations.DecDecodesOrReportsLogRange := by
  refine ⟨fun _ => decode_dec, fun s log tail hw => ⟨fun hout => ?outside, fun hlo hhi => ?inside⟩⟩
  case outside =>
    exact ⟨_, exec_eq_answer _ s, status_respond_dec_of_notMem s (by dsimp only; omega)⟩
  case inside =>
    obtain ⟨-, -, htail⟩ := hw
    exact ⟨_, exec_eq_answer _ s, status_respond_dec_of_mem s ⟨hlo, hhi⟩,
      (yOut_respond_dec hlo hhi htail s).trans (decodeInt_eq_binSizeOf log tail)⟩

end Sys2Proof.Machine
end

section
/-! The comparator (spec/44_comparator.md): the four comparisons answer the order of the keys. -/

namespace Sys2Proof.Machine

/-- A comparison is answered `OK`, with the relation its flag decides. -/
theorem exec_of_responseOf_cmp_iff {i : Instr} {f : Bool} {p : Prop} (h : responseOf i = .cmp f) (hf : f = true ↔ p)
    (s : State) : ∃ t, exec i s = .next t ∧ t.out.status = okCode ∧ (t.out.flag = true ↔ p) := by
  obtain ⟨t, hexec, hstatus, rfl⟩ := exec_of_responseOf_cmp h s
  exact ⟨t, hexec, hstatus, hf⟩

/-- R174: `CMPGE` is `CMPLE` with the operands exchanged; equality of keys does not depend on their order. -/
theorem keyLe_swap_iff (a b : CodeWord) : keyLe b a = true ↔ KeyBelow b a ∨ KeyTie a b := by
  rw [keyLe_iff, keyTie_comm]

/-- Settles O6: each comparison's flag is `keyLt` or `keyLe` of its operands, in their own or in exchanged order. -/
theorem comparisonsFollowTheKeyOrder : Obligations.ComparisonsFollowTheKeyOrder := by
  refine ⟨fun _ => ⟨decode_cmplt, decode_cmple, decode_cmpgt, decode_cmpge⟩, fun s a b => ⟨?lt, ?le, ?gt, ?ge⟩⟩
  case lt => exact exec_of_responseOf_cmp_iff rfl (keyLt_iff a b) s
  case le => exact exec_of_responseOf_cmp_iff rfl (keyLe_iff a b) s
  case gt => exact exec_of_responseOf_cmp_iff rfl (keyLt_iff b a) s
  case ge => exact exec_of_responseOf_cmp_iff rfl (keyLe_swap_iff a b) s

end Sys2Proof.Machine
end

section
/-! The faults (spec/60_exceptions.md): which commands raise each of the three status codes, and that the others are answered
`OK`. -/

namespace Sys2Proof

/-! ## The op codes of the two operations that can fault (R68) -/

theorem decode_eq_dec_iff {c : Command} {a : CodeWord} : decode c = .dec a ↔ c.op = 0x2 ∧ c.wordA = a := by
  refine op_cases c fun k hk hop => ?_
  rw [decode_of_op hop, hop]
  interval_cases k <;> simp [decode, Command.wordA]

theorem decode_eq_cls_iff {c : Command} {x : Int} : decode c = .cls x ↔ c.op = 0x3 ∧ sint c.xIn = x := by
  refine op_cases c fun k hk hop => ?_
  rw [decode_of_op hop, hop]
  interval_cases k <;> simp [decode]

end Sys2Proof

namespace Sys2Proof.Machine

/-! ## Which operation raises which fault -/

/-- R202: a reserved operation is answered `ILLEGAL_OP`, and the host's side of the state stays as it is. -/
theorem exec_of_mem_reservedOperations {i : Instr} (h : i ∈ reservedOperations) (s : State) :
    ∃ t, exec i s = .next t ∧ t.out.status = 1 ∧ t.inp = s.inp ∧ t.pending = s.pending :=
  ⟨_, exec_eq_answer i s, (drive_status ..).trans ((status_eq_illegalOp_iff i).2 h), rfl, rfl⟩

/-- R203: only `CLS` of zero is answered `ZERO_OPERAND`. -/
theorem status_eq_zeroOperand_iff (i : Instr) : (responseOf i).status = 2 ↔ i = .cls 0 := by
  cases i with
  | dec a => rw [status_dec]; split <;> simp
  | cls x => rw [status_cls]; split <;> simp [*]
  | _ => simp [responseOf, encResponse, bofeResponse, bofdResponse, Response.status, okCode, FaultCode.code]

/-- R204: only `DEC` of a `log` outside R151's range is answered `LOG_RANGE`. -/
theorem status_eq_logRange_iff (i : Instr) :
    (responseOf i).status = 3 ↔ ∃ a, i = .dec a ∧ (a.log < -31 ∨ 30 < a.log) := by
  cases i with
  | dec a => rw [status_dec]; split <;> simp <;> omega
  | cls x => rw [status_cls]; split <;> simp
  | _ => simp [responseOf, encResponse, bofeResponse, bofdResponse, Response.status, okCode, FaultCode.code]

/-- R200: the status of a response that raises none of the three faults. -/
theorem eq_okCode_of_not_fault {v : BitVec 2} (h1 : v ≠ 1) (h2 : v ≠ 2) (h3 : v ≠ 3) : v = okCode := by
  revert v
  decide

/-! ## Which command raises which fault -/

section Commands

variable {c : Command} {s t : State} (h : exec (decode c) s = .next t)
include h

theorem status_of_exec : t.out.status = (responseOf (decode c)).status := by
  rw [exec_next_iff.1 h, respond_out, drive_status]

/-- R203: a command is answered `ZERO_OPERAND` exactly when it is `CLS` with `x_in = 0`. -/
theorem exec_decode_zeroOperand_iff : t.out.status = 2 ↔ c.op = 0x3 ∧ c.xIn = 0 := by
  rw [status_of_exec h, status_eq_zeroOperand_iff, decode_eq_cls_iff, sint_eq_zero_iff]

/-- R204: a command is answered `LOG_RANGE` exactly when it is `DEC` with `a_log` outside -31 .. 30. -/
theorem exec_decode_logRange_iff : t.out.status = 3 ↔ c.op = 0x2 ∧ (sint c.aLog < -31 ∨ 30 < sint c.aLog) := by
  rw [status_of_exec h, status_eq_logRange_iff]
  simp [decode_eq_dec_iff, and_assoc, Command.wordA]

/-- R205: a command whose op code is neither reserved nor that of `DEC` or `CLS` raises no fault. -/
theorem exec_decode_ok (hreserved : ¬ ReservedOp c.op) (hdec : c.op ≠ 0x2) (hcls : c.op ≠ 0x3) :
    t.out.status = okCode :=
  eq_okCode_of_not_fault (fun h1 => hreserved ((exec_decode_illegalOp_iff h).1 h1))
    (fun h2 => hcls ((exec_decode_zeroOperand_iff h).1 h2).1) (fun h3 => hdec ((exec_decode_logRange_iff h).1 h3).1)

/-- R203: `ENC` of zero answers the code word `(0, 0)`. -/
theorem exec_decode_enc_zero (hop : c.op = 0x1) (hx : c.xIn = 0) : t.out.qLog = 0 ∧ t.out.qTail = 0 := by
  rw [decode_enc hop, hx] at h
  rw [exec_next_iff.1 h]
  exact ⟨rfl, rfl⟩

end Commands

/-- R205: the op codes of the operations that cannot fault. -/
theorem faultless_op {op : BitVec 4}
    (h : op = 0x1 ∨ op = 0x4 ∨ op = 0x5 ∨ op = 0x8 ∨ op = 0x9 ∨ op = 0xA ∨ op = 0xB) :
    ¬ ReservedOp op ∧ op ≠ 0x2 ∧ op ≠ 0x3 := by
  unfold ReservedOp
  revert op
  decide

/-- Settles O8: each status code is traced to the operations that raise it, and those to their op codes; an op code left over
raises none of the three. -/
theorem statusSaysExactlyWhichFault : Obligations.StatusSaysExactlyWhichFault := by
  intro s c
  have hexec := exec_eq_answer (decode c) s
  refine ⟨_, hexec, exec_decode_illegalOp_iff hexec, exec_decode_zeroOperand_iff hexec, exec_decode_logRange_iff hexec,
    fun hop => ?ok, exec_decode_enc_zero hexec⟩
  obtain ⟨hreserved, hdec, hcls⟩ := faultless_op hop
  exact exec_decode_ok hexec hreserved hdec hcls

/-- Settles O7: a reserved op code decodes to a reserved operation, and all seven of those answer alike. -/
theorem reservedOpsAnswerIllegalOp : Obligations.ReservedOpsAnswerIllegalOp := by
  refine ⟨fun c => (decode_mem_reservedOperations_iff c).2, fun s => ?_⟩
  have answers {i : Instr} (h : i ∈ reservedOperations) := exec_of_mem_reservedOperations h s
  exact ⟨answers (by simp), answers (by simp), answers (by simp), answers (by simp), answers (by simp),
    answers (by simp), answers (by simp)⟩

end Sys2Proof.Machine
end

section
/-! Decode and encode (spec/30_encoding.md): the operation a command carries, the command an operation is carried by, and the
74-bit image of a command. -/

namespace Sys2Proof

/-! ## What the ports can carry (R21) -/

theorem wordOfPorts_wellFormed (l t : BitVec 8) : CodeWord.WellFormed ⟨sint l, uint t⟩ :=
  have ⟨hlo, hhi⟩ := Machine.sint8_bounds l
  ⟨hlo, hhi, Nat.le_of_lt_succ t.isLt⟩

theorem wordA_wellFormed (c : Command) : c.wordA.WellFormed := wordOfPorts_wellFormed c.aLog c.aTail

theorem wordB_wellFormed (c : Command) : c.wordB.WellFormed := wordOfPorts_wellFormed c.bLog c.bTail

theorem sE_le (c : Command) : uint c.sE ≤ 31 := Nat.le_of_lt_succ c.sE.isLt

theorem aTail_le (c : Command) : uint c.aTail ≤ 255 := Nat.le_of_lt_succ c.aTail.isLt

/-- Settles O22: the operands are values read from ports, whatever the op code. -/
theorem everyCommandDecodesWellFormed : Obligations.EveryCommandDecodesWellFormed := by
  intro c
  refine op_cases c fun k hk hop => ?_
  have hx := Machine.isInt32_sint c.xIn
  have ha := wordA_wellFormed c
  have hb := wordB_wellFormed c
  have he := sE_le c
  have hraw := c.xIn.isLt
  have htail := aTail_le c
  rw [decode_of_op hop]
  -- the rows of R68 in the order of `op`
  interval_cases k
  · rfl
  · exact decide_eq_true hx
  · exact decide_eq_true ha
  · exact decide_eq_true hx
  · exact decide_eq_true ⟨he, hraw⟩
  · exact decide_eq_true ⟨he, htail⟩
  · rfl
  · rfl
  · exact decide_eq_true ⟨ha, hb⟩
  · exact decide_eq_true ⟨ha, hb⟩
  · exact decide_eq_true ⟨ha, hb⟩
  · exact decide_eq_true ⟨ha, hb⟩
  · rfl
  · rfl
  · rfl
  · rfl

/-! ## Decode after encode (R65, R68) -/

/-- R40's bytes are also R65's ports: the two fields of a well-formed code word read back from them. -/
theorem wordOfPorts_sext_zext {w : CodeWord} (h : w.WellFormed) :
    CodeWord.mk (sint (sext 8 w.log)) (uint (zext 8 w.tail)) = w :=
  Machine.wordOfBytes_sext_zext h

theorem decode_encode {i : Instr} (h : i.wellFormed = true) : decode (encode i) = i := by
  cases i with
  | enc x =>
    have hx : IsInt32 x := of_decide_eq_true h
    exact congrArg Instr.enc (Machine.sint_sext32 hx)
  | cls x =>
    have hx : IsInt32 x := of_decide_eq_true h
    exact congrArg Instr.cls (Machine.sint_sext32 hx)
  | dec a =>
    have ha : a.WellFormed := of_decide_eq_true h
    exact congrArg Instr.dec (wordOfPorts_sext_zext ha)
  | bofe neg e raw =>
    obtain ⟨he, hraw⟩ : e ≤ 31 ∧ raw < 2 ^ 32 := of_decide_eq_true h
    exact congrArg₂ (Instr.bofe neg) (Machine.uint_zext5 he) (Machine.uint_zext32 hraw)
  | bofd neg e tail =>
    obtain ⟨he, htail⟩ : e ≤ 31 ∧ tail ≤ 255 := of_decide_eq_true h
    exact congrArg₂ (Instr.bofd neg) (Machine.uint_zext5 he) (Machine.uint_zext8 htail)
  | cmplt a b =>
    obtain ⟨ha, hb⟩ : a.WellFormed ∧ b.WellFormed := of_decide_eq_true h
    exact congrArg₂ Instr.cmplt (wordOfPorts_sext_zext ha) (wordOfPorts_sext_zext hb)
  | cmple a b =>
    obtain ⟨ha, hb⟩ : a.WellFormed ∧ b.WellFormed := of_decide_eq_true h
    exact congrArg₂ Instr.cmple (wordOfPorts_sext_zext ha) (wordOfPorts_sext_zext hb)
  | cmpgt a b =>
    obtain ⟨ha, hb⟩ : a.WellFormed ∧ b.WellFormed := of_decide_eq_true h
    exact congrArg₂ Instr.cmpgt (wordOfPorts_sext_zext ha) (wordOfPorts_sext_zext hb)
  | cmpge a b =>
    obtain ⟨ha, hb⟩ : a.WellFormed ∧ b.WellFormed := of_decide_eq_true h
    exact congrArg₂ Instr.cmpge (wordOfPorts_sext_zext ha) (wordOfPorts_sext_zext hb)
  | _ => rfl

/-! ## The 74-bit image (log 8) -/

theorem toWord_lt (c : Command) : c.toWord < 2 ^ 74 := by
  have hop := c.op.isLt
  have hx := c.xIn.isLt
  have hla := c.aLog.isLt
  have hta := c.aTail.isLt
  have hlb := c.bLog.isLt
  have htb := c.bTail.isLt
  have hneg := c.sNeg.toNat_le
  have he := c.sE.isLt
  unfold Command.toWord
  omega

theorem ofWord_toWord (c : Command) : Command.ofWord c.toWord = c := by
  obtain ⟨op, x, la, ta, lb, tb, neg, e⟩ := c
  have hop := op.isLt
  have hx := x.isLt
  have hla := la.isLt
  have hta := ta.isLt
  have hlb := lb.isLt
  have htb := tb.isLt
  have hneg := neg.toNat_le
  have he := e.isLt
  simp only [Command.ofWord, Command.toWord, Command.mk.injEq, ← BitVec.toNat_inj, BitVec.toNat_ofNat]
  refine ⟨by omega, by omega, by omega, by omega, by omega, by omega, ?_, by omega⟩
  cases neg
  · rw [Bool.toNat_false, beq_eq_false_iff_ne]
    omega
  · rw [Bool.toNat_true, beq_iff_eq]
    omega

theorem toNat_mod_two_beq_one (n : Nat) : (n % 2 == 1).toNat = n % 2 := by
  rcases Nat.mod_two_eq_zero_or_one n with h | h <;> rw [h] <;> rfl

theorem toWord_ofWord {w : Nat} (h : w < 2 ^ 74) : (Command.ofWord w).toWord = w := by
  simp only [Command.ofWord, Command.toWord, BitVec.toNat_ofNat, toNat_mod_two_beq_one]
  omega

/-- Settles O21: the ports lie side by side in the image, so dividing by a port's place value finds it again. -/
theorem commandImageIsOneToOne : Obligations.CommandImageIsOneToOne :=
  ⟨fun c => ⟨toWord_lt c, ofWord_toWord c⟩, fun _ => toWord_ofWord⟩

theorem decodeWord_encodeWord {i : Instr} (h : i.wellFormed = true) : decodeWord (encodeWord i) = .ok i := by
  rw [encodeWord, decodeWord_of_lt (toWord_lt _), ofWord_toWord, decode_encode h]

/-- Settles O19: each port gives back the operand it was driven with, and the image gives back the ports. -/
theorem decodeOfEncodeIsIdentity : Obligations.DecodeOfEncodeIsIdentity := by
  intro i h
  have hword := decodeWord_encodeWord h
  have hmod : encodeWord i % 2 ^ 74 = encodeWord i := Nat.mod_eq_of_lt (toWord_lt _)
  exact ⟨decode_encode h, hword, decodeTableWord_of_ok (by rw [hmod]; exact hword)⟩

/-! ## Encode after decode (R64) -/

theorem sext_sint {n : Nat} (v : BitVec n) : sext n (sint v) = v := BitVec.ofInt_toInt

theorem zext_uint {n : Nat} (v : BitVec n) : zext n (uint v) = v := (BitVec.ofNat_toNat n v).trans (BitVec.setWidth_eq v)

section EncodeDecode

variable {c : Command}

theorem encode_decode_formatX (h : c.op = 0x1 ∨ c.op = 0x3) :
    encode (decode c) = { Command.idle with op := c.op, xIn := c.xIn } := by
  rcases h with h | h
  · rw [decode_enc h, encode, Command.formatX, sext_sint, h]
  · rw [decode_cls h, encode, Command.formatX, sext_sint, h]

theorem encode_decode_formatQ (h : c.op = 0x2) :
    encode (decode c) = { Command.idle with op := c.op, aLog := c.aLog, aTail := c.aTail } := by
  rw [decode_dec h, encode, Command.formatQ, Command.wordA, sext_sint, zext_uint, h]

theorem formatQQ_words (op : BitVec 4) (c : Command) :
    Command.formatQQ op c.wordA c.wordB = { c with op := op, xIn := 0, sNeg := false, sE := 0 } := by
  rw [Command.formatQQ, Command.wordA, Command.wordB, sext_sint, zext_uint, sext_sint, zext_uint]
  rfl

theorem encode_decode_formatQQ (h : c.op = 0x8 ∨ c.op = 0x9 ∨ c.op = 0xA ∨ c.op = 0xB) :
    encode (decode c) = { c with xIn := 0, sNeg := false, sE := 0 } := by
  rcases h with h | h | h | h
  · rw [decode_cmplt h, encode, formatQQ_words, h]
  · rw [decode_cmple h, encode, formatQQ_words, h]
  · rw [decode_cmpgt h, encode, formatQQ_words, h]
  · rw [decode_cmpge h, encode, formatQQ_words, h]

theorem encode_decode_formatSE (h : c.op = 0x4) :
    encode (decode c) = { Command.idle with op := c.op, sNeg := c.sNeg, sE := c.sE, xIn := c.xIn } := by
  rw [decode_bofe h, encode, Command.formatSE, zext_uint, zext_uint, h]

theorem encode_decode_formatSD (h : c.op = 0x5) :
    encode (decode c) = { Command.idle with op := c.op, sNeg := c.sNeg, sE := c.sE, aTail := c.aTail } := by
  rw [decode_bofd h, encode, Command.formatSD, zext_uint, zext_uint, h]

theorem encode_decode_reserved (h : Machine.ReservedOp c.op) :
    encode (decode c) = { Command.idle with op := c.op } := by
  rcases h with h | h | h | h | h | h | h
  · rw [decode_reserved0 h, h]; rfl
  · rw [decode_reserved6 h, h]; rfl
  · rw [decode_reserved7 h, h]; rfl
  · rw [decode_reservedC h, h]; rfl
  · rw [decode_reservedD h, h]; rfl
  · rw [decode_reservedE h, h]; rfl
  · rw [decode_reservedF h, h]; rfl

end EncodeDecode

/-- Settles O20, format by format. -/
theorem encodeOfDecodeRestoresReadPorts : Obligations.EncodeOfDecodeRestoresReadPorts := fun _ =>
  ⟨encode_decode_formatX, encode_decode_formatQ, encode_decode_formatQQ, encode_decode_formatSE, encode_decode_formatSD,
    encode_decode_reserved⟩

/-- Settles O23: each command's op code picks its row, and its ports are read in that row's format. -/
theorem sampleCommandsDecode : Obligations.SampleCommandsDecode :=
  ⟨decode_enc rfl, decode_cls rfl, decode_dec rfl, decode_bofe rfl, decode_bofd rfl, decode_cmpgt rfl,
    decode_reservedC rfl⟩

end Sys2Proof
end

section
/-! Steps and runs (spec/10_state.md section 3, spec/70_reset_and_hazards.md section 1): what a step and a run leave on the
ports, and which of them depend on the command alone. -/

namespace Sys2Proof.Machine

/-! ## One step (R11, R230) -/

theorem coherent_respond (s : State) : Coherent (s.respond (respond s.inp)) := holds_drive _ _ _

/-- R230: what every step does, from every state. -/
theorem step_spec (s : State) :
    ∃ t, step s = .next t ∧ Coherent t ∧ t.inp = s.pending.head?.getD s.inp ∧ t.pending = s.pending.tail :=
  ⟨_, step_eq_respond s, coherent_respond _, present_inp s, present_pending s⟩

/-- Settles O13: a step drives the outputs with the response to the command it has just presented. -/
theorem stepKeepsOutputsAnsweringInputs : Obligations.StepKeepsOutputsAnsweringInputs := step_spec

/-- Settles O14: the undriven op code 0x0 is reserved, and reset shows its fault. -/
theorem resetOutputsAnswerResetInputs : Obligations.ResetOutputsAnswerResetInputs := ⟨rfl, rfl, rfl⟩

theorem step_of_pending_cons {s : State} {c : Command} {rest : List Command} (h : s.pending = c :: rest) :
    step s = exec (decode c) { s with inp := c, pending := rest } := by
  rw [step, present_of_cons h]

theorem step_of_pending_nil {s : State} (h : s.pending = []) : step s = exec (decode s.inp) s := by
  rw [step, present_of_nil h]

/-- Settles O12: the presented command is the head of the list, and a placed image is that head. -/
theorem stepRunsTheDecodedCommand : Obligations.StepRunsTheDecodedCommand := by
  refine ⟨fun s c rest h => ⟨everyCommandDecodesWellFormed c, step_of_pending_cons h⟩, fun s => step_of_pending_nil,
    fun s nbits w i h => ?_⟩
  rw [step_of_pending_cons (withFetchWord_pending s nbits w), decodeTableWord_some h]
  rfl

/-! ## Runs (R23, R209) -/

/-- R23: `k` steps answer the first `k` pending commands; the next step answers the one after them. -/
theorem run_answers {s : State} {c : Command} {k : Nat} (h : s.pending[k]? = some c) :
    ∃ t : State, Host.Core.run Sys2Proof.core (k + 1) s = .next t
      ∧ t.inp = c ∧ Coherent t ∧ t.pending = s.pending.drop (k + 1) := by
  induction k generalizing s with
  | zero =>
    refine ⟨_, run_succ 0 s, ?_, coherent_respond _, ?_⟩
    · rw [respond_inp, present_inp, List.head?_eq_getElem?, h, Option.getD_some]
    · rw [respond_pending, present_pending, List.drop_one]
  | succ k ih =>
    have htail : (s.present.respond (respond s.present.inp)).pending = s.pending.tail := present_pending s
    have hnext : (s.present.respond (respond s.present.inp)).pending[k]? = some c := by rw [htail, List.getElem?_tail, h]
    obtain ⟨t, hrun, hinp, hcoh, hpending⟩ := ih hnext
    refine ⟨t, (run_succ (k + 1) s).trans hrun, hinp, hcoh, ?_⟩
    rw [hpending, htail, List.drop_tail]

/-- Settles O15: coherence of the state reached is the response to its own input command. -/
theorem runAnswersEachCommandInTurn : Obligations.RunAnswersEachCommandInTurn := by
  rintro s _ k c rfl hk
  obtain ⟨t, hrun, rfl, hcoh, hpending⟩ := run_answers hk
  exact ⟨t, hrun, rfl, hcoh, hpending⟩

/-- R200: ports that hold a response show its status. -/
theorem status_of_holds {o : OutPorts} {r : Response} (h : o.holds r = true) : o.status = r.status := by
  cases r with
  | fault code => exact of_decide_eq_true h
  | _ => exact (of_decide_eq_true h).1

theorem programFinished_iff (cs : List Command) :
    programFinished cs = true ↔ ∀ k, (h : k < cs.length) → (respond cs[k]).status = okCode := by
  simp [programFinished, programResponses, List.forall_mem_iff_getElem]

/-- Settles O16: the step after `k` others shows the status of command `k`'s own response. -/
theorem finishedProgramsAreThoseWithoutFaults : Obligations.FinishedProgramsAreThoseWithoutFaults := by
  rintro s _ rfl
  rw [programFinished_iff]
  refine forall₂_congr fun k hk => ?_
  obtain ⟨t, hrun, hinp, hcoh, -⟩ := run_answers (List.getElem?_eq_getElem hk)
  have hstatus : t.out.status = (respond s.pending[k]).status := by rw [status_of_holds hcoh, hinp]
  rw [← hstatus]
  refine ⟨fun hok => ⟨t, hrun, hok⟩, fun ⟨t', hrun', hok⟩ => ?_⟩
  cases hrun.symm.trans hrun'
  exact hok

/-! ## Which ports an answer writes (R66) -/

/-- R150: an answer of `DEC` that is OK carries the decoded integer. -/
theorem responseOf_dec_of_ok {a : CodeWord} (h : (responseOf (.dec a)).status = okCode) :
    responseOf (.dec a) = decResponse a := by
  simp only [responseOf] at h ⊢
  split_ifs at h ⊢
  · rfl
  · exact absurd h (fault_status_ne_ok _)

/-- R97: an answer of `CLS` that is OK carries the classifier's fields. -/
theorem responseOf_cls_of_ok {x : Int} (h : (responseOf (.cls x)).status = okCode) :
    ∃ k, responseOf (.cls x) = clsResponse k := by
  simp only [responseOf] at h ⊢
  split at h
  · exact absurd h (fault_status_ne_ok _)
  · exact ⟨_, rfl⟩

/-- R66: the ports an answer writes hold its fields, whatever is drawn for the others. -/
theorem agreeOnWritten_drive (c : Command) (n n' : Nat) :
    AgreeOnWritten c.op ((respond c).drive n c) ((respond c).drive n' c) := by
  unfold respond
  refine ⟨by rw [drive_status, drive_status], fun hok => ⟨?enc, ?dec, ?cls, ?bofe, ?bofd, ?cmp⟩⟩
  all_goals intro hop
  case enc =>
    rw [decode_enc hop]
    exact ⟨rfl, rfl⟩
  case dec =>
    rw [drive_status, decode_dec hop] at hok
    rw [decode_dec hop, responseOf_dec_of_ok hok]
    rfl
  case cls =>
    rw [drive_status, decode_cls hop] at hok
    obtain ⟨k, hk⟩ := responseOf_cls_of_ok hok
    rw [decode_cls hop, hk]
    exact ⟨rfl, rfl, rfl, rfl, rfl⟩
  case bofe =>
    rw [decode_bofe hop]
    exact ⟨rfl, rfl⟩
  case bofd =>
    rw [decode_bofd hop]
    exact ⟨rfl, rfl⟩
  case cmp =>
    rcases hop with hop | hop | hop | hop
    · rw [decode_cmplt hop]; rfl
    · rw [decode_cmple hop]; rfl
    · rw [decode_cmpgt hop]; rfl
    · rw [decode_cmpge hop]; rfl

theorem out_of_step {s t : State} {c : Command} {rest : List Command} (hp : s.pending = c :: rest)
    (h : step s = .next t) : t.out = (respond c).drive s.draws c := by
  rw [step_of_pending_cons hp] at h
  rw [exec_next_iff.1 h]
  rfl

/-- Settles O10: the two answers are one response, driven with two draws of free values. -/
theorem responseDependsOnlyOnItsCommand : Obligations.ResponseDependsOnlyOnItsCommand := by
  intro s s' t t' c rest rest' hs hs' ht ht'
  rw [out_of_step hs ht, out_of_step hs' ht']
  exact agreeOnWritten_drive c _ _

/-- Settles O9: each response format drives its own ports over the free ones, a fault none but the status. -/
theorem operationsTouchOnlyTheirPorts : Obligations.OperationsTouchOnlyTheirPorts := by
  simp only [Obligations.OperationsTouchOnlyTheirPorts, exec_next_iff]
  refine ⟨?frame, ?enc, ?dec, ?cls, ?bofe, ?bofd, ?cmp, ?fault⟩
  case frame =>
    rintro i s _ rfl
    exact ⟨rfl, rfl, rfl⟩
  case enc =>
    rintro x s _ rfl
    rfl
  case dec =>
    rintro a s _ rfl hok
    rw [responseOf_dec_of_ok ((drive_status ..).symm.trans hok)]
    rfl
  case cls =>
    rintro x s _ rfl hok
    obtain ⟨k, hk⟩ := responseOf_cls_of_ok ((drive_status ..).symm.trans hok)
    rw [hk]
    rfl
  case bofe =>
    rintro neg e raw s _ rfl
    rfl
  case bofd =>
    rintro neg e tail s _ rfl
    rfl
  case cmp =>
    rintro i a b s _ hi rfl
    simp only [List.mem_cons, List.not_mem_nil, or_false] at hi
    rcases hi with rfl | rfl | rfl | rfl <;> rfl
  case fault =>
    rintro i s _ rfl hfault
    rw [respond_out, drive_status, status_ne_ok_iff] at hfault
    obtain ⟨code, hcode⟩ := hfault
    rw [hcode]
    rfl

end Sys2Proof.Machine
end

section
/-! The bin size (R110) and the classes (R96): which integers the classifier, and the encoder after it, put in which class. -/

namespace Sys2Proof.Machine

/-- Settles O24: both forms of the bin size are the power of two of the bin shift. -/
theorem binSizeFollowsTheIntervalFormula : Obligations.BinSizeFollowsTheIntervalFormula := fun neg e =>
  ⟨sh_eq neg e, rfl, (binSizeOf_two_pow neg e).symm, sh_le neg, rfl⟩

/-! ## Powers of two -/

theorem cast_two_pow (k : Nat) : ((2 ^ k : Nat) : Int) = 2 ^ k := Nat.cast_pow 2 k

theorem isFloorLog2_two_pow (k : Nat) : IsFloorLog2 (2 ^ k) k := ⟨le_rfl, Nat.pow_lt_pow_succ (by decide)⟩

theorem isFloorLog2_iff_eq {m a k : Nat} (h : IsFloorLog2 m a) : IsFloorLog2 m k ↔ a = k :=
  ⟨isFloorLog2_unique h, fun e => e ▸ h⟩

/-- R93: a larger magnitude has no lower highest bit. -/
theorem isFloorLog2_mono {m m' a a' : Nat} (h : IsFloorLog2 m a) (h' : IsFloorLog2 m' a') (hm : m ≤ m') : a ≤ a' := by
  have hpow : 2 ^ a < 2 ^ (a' + 1) := h.1.trans_lt (hm.trans_lt h'.2)
  exact Nat.lt_succ_iff.1 ((Nat.pow_lt_pow_iff_right (by decide)).1 hpow)

/-! ## The classes of the negative integers (R96) -/

/-- R96: the magnitudes of the negative class `-k`; class `-1` holds -1 as well as -2. -/
def IsNegClass (m k : Nat) : Prop := 1 ≤ k ∧ m ≤ 2 ^ k ∧ (k = 1 ∨ 2 ^ (k - 1) < m)

theorem isNegClass_mono {m m' k k' : Nat} (h : IsNegClass m k) (h' : IsNegClass m' k') (hm : m ≤ m') : k ≤ k' := by
  obtain ⟨-, -, h1 | hlow⟩ := h
  · exact h1 ▸ h'.1
  · have hpow : 2 ^ (k - 1) < 2 ^ k' := hlow.trans_le (hm.trans h'.2.1)
    have := (Nat.pow_lt_pow_iff_right (by decide)).1 hpow
    omega

theorem isNegClass_unique {m k k' : Nat} (h : IsNegClass m k) (h' : IsNegClass m k') : k = k' :=
  le_antisymm (isNegClass_mono h h' le_rfl) (isNegClass_mono h' h le_rfl)

/-- R96: an exact power lies at the far end of its class. -/
theorem isNegClass_two_pow {a : Nat} (h : a ≠ 0) : IsNegClass (2 ^ a) a :=
  ⟨by omega, le_rfl, Or.inr (Nat.pow_lt_pow_right (by decide) (by omega))⟩

/-- R96: a magnitude off the exact powers lies strictly below the next power. -/
theorem isNegClass_succ {m a : Nat} (h : IsFloorLog2 m a) (he : ¬ (a ≠ 0 ∧ m = 2 ^ a)) : IsNegClass m (a + 1) := by
  obtain ⟨hlow, hhigh⟩ := h
  refine ⟨by omega, hhigh.le, ?_⟩
  rw [Nat.add_sub_cancel]
  omega

/-! ## The class of an integer -/

theorem encodeInt_log_of_pos {x : Int} {a : Nat} (hx : 0 < x) (h : IsFloorLog2 x.natAbs a) : (encodeInt x).log = a := by
  rw [encodeInt_log_eq h, classLog_eq h, if_neg hx.not_gt, if_pos hx, ite_self]

/-- R96: the class of a negative integer exists and is the encoder's `log`. -/
theorem exists_isNegClass {x : Int} (hx : x < 0) : ∃ k, IsNegClass x.natAbs k ∧ (encodeInt x).log = -k := by
  obtain ⟨a, ha⟩ := exists_isFloorLog2 hx.ne
  rw [encodeInt_log_eq ha, classLog_eq ha, if_pos hx, if_neg hx.not_gt]
  split_ifs with he
  · exact ⟨a, he.2 ▸ isNegClass_two_pow he.1, rfl⟩
  · exact ⟨a + 1, isNegClass_succ ha he, by push_cast; omega⟩

theorem encodeInt_log_of_neg {x : Int} {k : Nat} (hx : x < 0) (h : IsNegClass x.natAbs k) : (encodeInt x).log = -k := by
  obtain ⟨j, hj, hlog⟩ := exists_isNegClass hx
  rw [hlog, isNegClass_unique hj h]

/-- R96: which side of zero an integer is on, by its class; 0 and 1 share class 0. -/
theorem encodeInt_log_sign (x : Int) :
    ((encodeInt x).log < 0 ↔ x < 0) ∧ ((encodeInt x).log = 0 ↔ x = 0 ∨ x = 1) := by
  rcases lt_trichotomy x 0 with hx | rfl | hx
  · obtain ⟨k, hk, hlog⟩ := exists_isNegClass hx
    have := hk.1
    rw [hlog]
    omega
  · simp
  · obtain ⟨a, ha⟩ := exists_isFloorLog2 hx.ne'
    have hzero := absLog_eq_zero_iff ha
    rw [encodeInt_log_of_pos hx ha]
    omega

/-- R96: class `k` of the positive integers. -/
theorem encodeInt_log_eq_natCast_iff {x : Int} {k : Nat} (hk : 1 ≤ k) :
    (encodeInt x).log = k ↔ 2 ^ k ≤ x ∧ x ≤ 2 ^ (k + 1) - 1 := by
  have hcast := cast_two_pow k
  have hcast' := cast_two_pow (k + 1)
  obtain ⟨hneg, hzero⟩ := encodeInt_log_sign x
  by_cases hx : 0 < x
  · obtain ⟨a, ha⟩ := exists_isFloorLog2 hx.ne'
    rw [encodeInt_log_of_pos hx ha, Nat.cast_inj, ← isFloorLog2_iff_eq ha, IsFloorLog2]
    omega
  · have hpos := Nat.two_pow_pos k
    omega

/-- R96: class `-k` of the negative integers. -/
theorem encodeInt_log_eq_neg_iff {x : Int} {k : Nat} (hk : 1 ≤ k) :
    (encodeInt x).log = -(k : Int) ↔ x < 0 ∧ IsNegClass x.natAbs k := by
  constructor
  · intro h
    have hx : x < 0 := (encodeInt_log_sign x).1.1 (by omega)
    obtain ⟨j, hj, hlog⟩ := exists_isNegClass hx
    obtain rfl : j = k := by omega
    exact ⟨hx, hj⟩
  · rintro ⟨hx, h⟩
    exact encodeInt_log_of_neg hx h

theorem encodeInt_log_eq_neg_natCast_iff {x : Int} {k : Nat} (hk : 2 ≤ k) :
    (encodeInt x).log = -(k : Int) ↔ -2 ^ k ≤ x ∧ x ≤ -2 ^ (k - 1) - 1 := by
  have hcast := cast_two_pow k
  have hcast' := cast_two_pow (k - 1)
  have hpos := Nat.two_pow_pos (k - 1)
  rw [encodeInt_log_eq_neg_iff (by omega), IsNegClass]
  omega

theorem encodeInt_log_eq_neg_one_iff {x : Int} : (encodeInt x).log = -1 ↔ x = -2 ∨ x = -1 := by
  have h : (encodeInt x).log = -(1 : Nat) ↔ x < 0 ∧ IsNegClass x.natAbs 1 := encodeInt_log_eq_neg_iff le_rfl
  rw [← Nat.cast_one, h, IsNegClass]
  omega

/-- R96: the class never falls as the integer grows. -/
theorem encodeInt_log_mono {x y : Int} (h : x ≤ y) : (encodeInt x).log ≤ (encodeInt y).log := by
  have hx := encodeInt_log_sign x
  have hy := encodeInt_log_sign y
  by_cases hy0 : y < 0
  · obtain ⟨k, hk, hlogx⟩ := exists_isNegClass (h.trans_lt hy0)
    obtain ⟨j, hj, hlogy⟩ := exists_isNegClass hy0
    have := isNegClass_mono hj hk (by omega)
    omega
  · by_cases hx0 : 0 < x
    · obtain ⟨a, ha⟩ := exists_isFloorLog2 hx0.ne'
      obtain ⟨b, hb⟩ := exists_isFloorLog2 (hx0.trans_le h).ne'
      rw [encodeInt_log_of_pos hx0 ha, encodeInt_log_of_pos (hx0.trans_le h) hb]
      exact Int.ofNat_le.2 (isFloorLog2_mono ha hb (by omega))
    · omega

/-! ## The classifier's ports -/

theorem out_of_outputs {i : Instr} {s : State} {o : OutPorts} (h : outputs i s = some o) :
    o = (s.respond (responseOf i)).out := by
  rw [outputs_eq] at h
  exact (Option.some.inj h).symm

/-- R96: `CLS` answers the class the encoder uses. -/
theorem qLog_respond_cls_eq_log {x : Int} (hx : IsInt32 x) (h0 : x ≠ 0) (s : State) :
    sint (s.respond (responseOf (.cls x))).out.qLog = (encodeInt x).log := by
  obtain ⟨a, ha⟩ := exists_isFloorLog2 h0
  rw [qLog_respond_cls s hx ha, encodeInt_log_eq ha]

/-- Settles O28: the class on the port is the encoder's `log`, for which the table holds class by class. -/
theorem classesPartitionTheIntegers : Obligations.ClassesPartitionTheIntegers := by
  intro s x o hx h0 ho
  rw [out_of_outputs ho, qLog_respond_cls_eq_log hx h0]
  obtain ⟨hlo, hhi⟩ := encodeInt_log_bounds hx
  have hzero : (encodeInt x).log = 0 ↔ x = 1 := by rw [(encodeInt_log_sign x).2, or_iff_right h0]
  refine ⟨hlo, hhi, hzero, fun k => encodeInt_log_eq_natCast_iff, encodeInt_log_eq_neg_one_iff,
    fun k => encodeInt_log_eq_neg_natCast_iff, fun x' o' hx' h0' ho' hle => ?_⟩
  rw [out_of_outputs ho', qLog_respond_cls_eq_log hx' h0']
  exact encodeInt_log_mono hle

/-- R96: a class other than 0 has the sign of its integers. -/
theorem sgn_encodeInt_log {x : Int} (h1 : x ≠ 1) : sgn (encodeInt x).log = sgn x := by
  obtain ⟨hneg, hzero⟩ := encodeInt_log_sign x
  unfold sgn
  simp only [hneg, hzero, or_iff_left h1]

/-- Settles O29: each consequence is read off the branch of R96 that `c_exact` selects. -/
theorem classifierConsequences : Obligations.ClassifierConsequences := by
  intro s x o e hx h0 ho he
  obtain ⟨a, ha⟩ := exists_isFloorLog2 h0
  have hexact := cExact_respond_cls s ha
  have hcast := cast_two_pow a
  have hcast' := cast_two_pow (a + 1)
  have hzero := absLog_eq_zero_iff ha
  have hlog := encodeInt_log_eq ha
  rw [classLog_eq ha] at hlog
  rw [out_of_outputs ho, out_of_outputs he, qLog_respond_cls_eq_log hx h0, cAbsLog_respond_cls s hx ha]
  rw [← Bool.not_eq_true, hexact]
  refine ⟨ha, fun hx' => ?exact, fun hne hpos => ?pos, fun hne hneg => ?neg, sgn_encodeInt_log, ?zero⟩
  case exact =>
    have hword := encodeInt_exact ha hx'
    have htail := (ports_respond_enc hx hword s).2
    exact ⟨BitVec.eq_of_toNat_eq htail, by rw [hword], by omega⟩
  case pos =>
    obtain ⟨hlow, hhigh⟩ := ha
    rw [if_neg hne, if_pos hpos] at hlog
    by_cases ha0 : a = 0
    · exact Or.inr ⟨by omega, by omega⟩
    · exact Or.inl ⟨a, hlog, by omega, by omega⟩
  case neg =>
    obtain ⟨hlow, hhigh⟩ := ha
    rw [if_neg hne, if_neg hneg.not_gt] at hlog
    by_cases ha0 : a = 0
    · exact Or.inr ⟨by omega, by omega⟩
    · exact Or.inl ⟨a, hlog, by omega, by omega⟩
  case zero => rw [(encodeInt_log_sign x).2, or_iff_right h0]

/-! ## The exact test in bits (R95) -/

/-- R95: of the numbers with highest bit `a`, only the power has no lower bit set. -/
theorem eq_two_pow_iff_testBit {m a : Nat} (h : IsFloorLog2 m a) : m = 2 ^ a ↔ ∀ i < a, m.testBit i = false := by
  constructor
  · rintro rfl i hi
    exact Nat.testBit_two_pow_of_ne (by omega)
  · intro hlow
    have hmod : m % 2 ^ a = 0 := by
      refine Nat.zero_of_testBit_eq_false fun i => ?_
      rw [Nat.testBit_mod_two_pow]
      by_cases hi : i < a
      · rw [hlow i hi, Bool.and_false]
      · rw [decide_eq_false hi, Bool.false_and]
    obtain ⟨hle, hlt⟩ := h
    have hrest : m - 2 ^ a < 2 ^ a := by omega
    rw [Nat.mod_eq_sub_mod hle, Nat.mod_eq_of_lt hrest] at hmod
    omega

/-- Settles O27: the magnitude's word has the bits of the magnitude, and its highest is `c_abs_log`. -/
theorem exactTestInBits : Obligations.ExactTestInBits := by
  intro s xIn hne
  have ha := isFloorLog2_natAbs_sint hne
  have hmag := uint_neg_of_msb xIn
  generalize 31 - _ = a at ha
  have habs := cAbsLog_respond_cls s (isInt32_sint xIn) ha
  have hport : (s.respond (responseOf (.cls (sint xIn)))).out.cAbsLog ≠ 0 ↔ a ≠ 0 := by
    rw [← habs]
    exact not_congr BitVec.toNat_inj.symm
  refine ⟨_, exec_eq_answer _ s, ?_⟩
  rw [cExact_respond_cls s ha, hport, habs, eq_two_pow_iff_testBit ha, ← hmag]
  rfl

end Sys2Proof.Machine
end

section
/-! The encoder's code words (spec/42_encoder.md section 2): the quotient of the raw offset by the bin size, and what follows
from its bounds. -/

namespace Sys2Proof.Machine

/-! ## The bin size against the interval (R110) -/

theorem two_pow_eq_mul_sh_false {a : Nat} (h : 9 ≤ a) : 2 ^ a = 256 * 2 ^ sh false a := by
  rw [sh_large false h, if_neg Bool.false_ne_true, show 256 = 2 ^ 8 from rfl, ← pow_add, Nat.add_sub_cancel' (by omega)]

theorem two_pow_eq_mul_sh_true {a : Nat} (h : 9 ≤ a) : 2 ^ a = 512 * 2 ^ sh true a := by
  rw [sh_large true h, if_pos rfl, show 512 = 2 ^ 9 from rfl, ← pow_add, Nat.add_sub_cancel' h]

/-- R132: a tail below 256 that fits its class unscaled fits it scaled. -/
theorem mul_two_pow_sh_lt (neg : Bool) {a t : Nat} (ht : t < 256) (hta : t < 2 ^ a) : t * 2 ^ sh neg a < 2 ^ a := by
  by_cases ha : a < 9
  · rwa [sh_small neg ha, pow_zero, mul_one]
  · have hfalse : 2 ^ a = 256 * 2 ^ sh false a := two_pow_eq_mul_sh_false (by omega)
    have htrue : 2 ^ a = 512 * 2 ^ sh true a := two_pow_eq_mul_sh_true (by omega)
    calc t * 2 ^ sh neg a < 256 * 2 ^ sh neg a := Nat.mul_lt_mul_of_pos_right ht (Nat.two_pow_pos _)
      _ ≤ 2 ^ a := by cases neg <;> omega

/-- R133: on the positive side the quotient is a tail. -/
theorem div_two_pow_sh_false_lt {a r : Nat} (h : r < 2 ^ a) : r / 2 ^ sh false a < 256 := by
  by_cases ha : a < 9
  · rw [sh_small false ha, pow_zero, Nat.div_one]
    have : 2 ^ a ≤ 2 ^ 8 := Nat.pow_le_pow_right (by decide) (by omega)
    omega
  · rw [Nat.div_lt_iff_lt_mul (Nat.two_pow_pos _), ← two_pow_eq_mul_sh_false (by omega)]
    exact h

/-- R137: on the negative side it is below 512, whatever the class. -/
theorem div_two_pow_sh_true_lt {a r : Nat} (h : r < 2 ^ a) : r / 2 ^ sh true a < 512 := by
  by_cases ha : a < 9
  · rw [sh_small true ha, pow_zero, Nat.div_one]
    have : 2 ^ a ≤ 2 ^ 8 := Nat.pow_le_pow_right (by decide) (by omega)
    omega
  · rw [Nat.div_lt_iff_lt_mul (Nat.two_pow_pos _), ← two_pow_eq_mul_sh_true (by omega)]
    exact h

/-! ## Code words class by class (R133) -/

section Classes

variable {x : Int} {a : Nat}

/-- R132: the raw offset of a negative integer off the exact powers lies below its interval, or is 1 for -1. -/
theorem neg_offset_bounds (h : IsFloorLog2 x.natAbs a) (he : ¬ (a ≠ 0 ∧ x.natAbs = 2 ^ a)) :
    1 ≤ 2 ^ (a + 1) - x.natAbs ∧ (2 ^ (a + 1) - x.natAbs < 2 ^ a ∨ a = 0 ∧ 2 ^ (a + 1) - x.natAbs = 1) := by
  obtain ⟨hlow, hhigh⟩ := h
  by_cases ha : a = 0
  · subst ha
    omega
  · omega

/-- R133: the positive integers of class `a >= 1`, the exact power among them, have the quotient itself as tail. -/
theorem encodeInt_of_pos_class (hx : 0 < x) (h : IsFloorLog2 x.natAbs a) (h1 : a ≠ 0) :
    encodeInt x = ⟨a, (x.natAbs - 2 ^ a) / 2 ^ sh false a⟩ := by
  by_cases he : a ≠ 0 ∧ x.natAbs = 2 ^ a
  · rw [encodeInt_of_exact h he, if_neg hx.not_gt, he.2, Nat.sub_self, Nat.zero_div]
  · have hoffset : x.natAbs - 2 ^ a < 2 ^ a := by
      obtain ⟨hlow, hhigh⟩ := h
      omega
    rw [encodeInt_pos hx h he, classInterval, if_neg h1, Nat.mod_eq_of_lt (div_two_pow_sh_false_lt hoffset)]

/-- R133: the negative classes down to -9 are encoded without scaling, the exact power among them. -/
theorem encodeInt_of_neg_class {k : Nat} (hx : x < 0) (h : IsNegClass x.natAbs k) (hk : k ≤ 9) :
    encodeInt x = ⟨-k, 2 ^ k - x.natAbs⟩ := by
  obtain ⟨a, ha⟩ := exists_isFloorLog2 hx.ne
  by_cases he : a ≠ 0 ∧ x.natAbs = 2 ^ a
  · obtain rfl := isNegClass_unique (he.2 ▸ h) (isNegClass_two_pow he.1)
    rw [encodeInt_of_exact ha he, if_pos hx, he.2, Nat.sub_self]
  · obtain rfl := isNegClass_unique h (isNegClass_succ ha he)
    have hoffset : 2 ^ (a + 1) - x.natAbs < 256 := by
      have hpow : 2 ^ a ≤ 2 ^ 8 := Nat.pow_le_pow_right (by decide) (by omega)
      have hbounds := neg_offset_bounds ha he
      omega
    rw [encodeInt_neg hx ha he, sh_small true (by omega), pow_zero, Nat.div_one, Nat.mod_eq_of_lt hoffset]
    congr 1
    push_cast
    omega

end Classes

/-! ## The range of `log` (R131) -/

/-- Settles O30: the two ends are the classes 30 and -31, cut off by the 32-bit range. -/
theorem encLogRange : Obligations.EncLogRange := by
  intro s x hx
  have htop : (encodeInt x).log = 30 ↔ 2 ^ 30 ≤ x ∧ x ≤ 2 ^ 31 - 1 :=
    encodeInt_log_eq_natCast_iff (show 1 ≤ 30 by decide)
  have hbot : (encodeInt x).log = -31 ↔ -2 ^ 31 ≤ x ∧ x ≤ -2 ^ 30 - 1 :=
    encodeInt_log_eq_neg_natCast_iff (show 2 ≤ 31 by decide)
  obtain ⟨hlo, hhi⟩ := encodeInt_log_bounds hx
  refine ⟨_, exec_eq_answer _ s, ?_⟩
  rw [(ports_respond_enc hx rfl s).1, htop, hbot]
  exact ⟨hlo, hhi, by omega, by omega⟩

/-! ## The tail (R132, R133, R137) -/

/-- R133: the quotient of a positive integer is the integer's own, less the 256 its highest bit stands for. -/
theorem pos_quotient_add {m a : Nat} (ha : 9 ≤ a) (hm : 2 ^ a ≤ m) :
    (m - 2 ^ a) / 2 ^ sh false a + 256 = m / 2 ^ (a - 8) := by
  have hpow := two_pow_eq_mul_sh_false ha
  have hsplit : m - 2 ^ a + 256 * 2 ^ sh false a = m := by omega
  have hsh : sh false a = a - 8 := sh_large false ha
  rw [← Nat.add_mul_div_right _ _ (Nat.two_pow_pos _), hsplit, hsh]

/-- R133: bits 7 .. 0 of that quotient are the bits of the integer below its highest. -/
theorem testBit_pos_quotient {m a i : Nat} (ha : 9 ≤ a) (hm : 2 ^ a ≤ m) (hi : i < 8) :
    ((m - 2 ^ a) / 2 ^ sh false a).testBit i = m.testBit (a - 8 + i) := by
  have hdiv : 2 ^ 8 + (m - 2 ^ a) / 2 ^ sh false a = m / 2 ^ (a - 8) := (add_comm ..).trans (pos_quotient_add ha hm)
  rw [← Nat.testBit_two_pow_add_gt hi, hdiv, Nat.testBit_div_two_pow, add_comm]

section Quotients

variable {x : Int} {a : Nat} (h : IsFloorLog2 x.natAbs a)
include h

/-- R133: the quirk of R94 leaves the quotient of 1 at 1. -/
theorem pos_quotient_lt (hx : 0 < x) : (x.natAbs - classInterval a) / 2 ^ sh false a < 256 := by
  by_cases h0 : a = 0
  · have hone := (absLog_eq_zero_iff h).1 h0
    obtain rfl : x = 1 := by omega
    subst h0
    decide
  · obtain ⟨hlow, hhigh⟩ := h
    rw [classInterval, if_neg h0]
    exact div_two_pow_sh_false_lt (by omega)

theorem neg_quotient_lt (he : ¬ (a ≠ 0 ∧ x.natAbs = 2 ^ a)) : (2 ^ (a + 1) - x.natAbs) / 2 ^ sh true a < 512 := by
  rcases (neg_offset_bounds h he).2 with hlt | ⟨rfl, hone⟩
  · exact div_two_pow_sh_true_lt hlt
  · rw [hone]
    decide

/-- R137: the quotient reaches 256 in the half of a negative class that is nearer zero. -/
theorem neg_quotient_overflow_iff (he : ¬ (a ≠ 0 ∧ x.natAbs = 2 ^ a)) :
    256 ≤ (2 ^ (a + 1) - x.natAbs) / 2 ^ sh true a ↔ 9 ≤ a ∧ x.natAbs ≤ 3 * 2 ^ (a - 1) := by
  by_cases h9 : 9 ≤ a
  · have hpow : 2 ^ a = 512 * 2 ^ sh true a := two_pow_eq_mul_sh_true h9
    have hhalf : 2 ^ a = 2 * 2 ^ (a - 1) := by rw [← pow_succ', Nat.sub_add_cancel (by omega)]
    have hpos := Nat.two_pow_pos a
    rw [Nat.le_div_iff_mul_le (Nat.two_pow_pos _), pow_succ]
    omega
  · have hpow : 2 ^ a ≤ 2 ^ 8 := Nat.pow_le_pow_right (by decide) (by omega)
    have hoffset := neg_offset_bounds h he
    rw [sh_small true (by omega), pow_zero, Nat.div_one]
    omega

end Quotients

/-- Settles O31: below class 9 the bin size is 1 and the raw offset is the tail; from class 9 on it is scaled. -/
theorem encTailClosedForm : Obligations.EncTailClosedForm := by
  intro s x a hx ha hne
  have he : ¬ (a ≠ 0 ∧ x.natAbs = 2 ^ a) := by omega
  have hcast := cast_two_pow a
  have hcast' := cast_two_pow (a + 1)
  have hzero := absLog_eq_zero_iff ha
  have htail := (ports_respond_enc hx rfl s).2
  refine ⟨_, exec_eq_answer _ s, fun hpos h0 => ?one, fun hpos h1 h8 => ?posSmall, fun hpos h9 i hi => ?posLarge,
    fun hneg h0 => ?minusOne, fun hneg h1 h8 => ?negSmall, fun hneg h9 => ?negLarge⟩
  case one =>
    obtain rfl : x = 1 := by omega
    exact htail
  case minusOne =>
    obtain rfl : x = -1 := by omega
    exact htail
  case posSmall =>
    rw [encodeInt_of_pos_class hpos ha (by omega), sh_small false (by omega), pow_zero, Nat.div_one] at htail
    dsimp only at htail
    obtain ⟨hlow, -⟩ := ha
    omega
  case posLarge =>
    have hbits := testBit_pos_quotient h9 ha.1 hi
    rw [encodeInt_of_pos_class hpos ha (by omega)] at htail
    dsimp only at htail
    rw [← htail] at hbits
    rwa [show x.toNat = x.natAbs by omega]
  case negSmall =>
    rw [encodeInt_of_neg_class hneg (isNegClass_succ ha he) (by omega)] at htail
    dsimp only at htail
    obtain ⟨-, hhigh⟩ := ha
    omega
  case negLarge =>
    have hquot := neg_quotient_lt ha he
    rw [encodeInt_neg hneg ha he] at htail
    rw [sh_large true h9, if_pos rfl] at htail hquot
    exact ⟨htail, Nat.le_of_lt_succ hquot⟩

/-- A quotient below 512 reduced modulo 256. -/
theorem mod_256_of_lt_512 {q : Nat} (h : q < 512) : q % 256 = if 256 ≤ q then q - 256 else q := by
  split_ifs <;> omega

/-- Settles O32: the raw offset, its quotient, and the quotient's bounds on either side. -/
theorem tailOverflowExactlyInTheNearHalf : Obligations.TailOverflowExactlyInTheNearHalf := by
  intro s x a hx ha hne
  have he : ¬ (a ≠ 0 ∧ x.natAbs = 2 ^ a) := by omega
  have htail := (ports_respond_enc hx rfl s).2
  refine ⟨_, exec_eq_answer _ s, rfl, ?_⟩
  rcases lt_or_gt_of_ne (ne_zero_of_isFloorLog2 ha) with hneg | hpos
  · have hquot := neg_quotient_lt ha he
    have hoffset : ((2 ^ (a + 1) - x.natAbs : Nat) : Int) = 2 ^ (a + 1) + x := by
      have hcast := cast_two_pow (a + 1)
      have hhigh := ha.2
      omega
    rw [encodeInt_neg hneg ha he, mod_256_of_lt_512 hquot] at htail
    refine ⟨_, 2 ^ (a + 1) - x.natAbs, by rw [if_pos hneg, hoffset], rfl, ?_⟩
    rw [decide_eq_true hneg, ← classInterval, binSizeOf_classInterval]
    exact ⟨(neg_quotient_overflow_iff ha he).trans (and_iff_right hneg).symm, Nat.le_of_lt_succ hquot, htail⟩
  · have hquot := pos_quotient_lt ha hpos
    have hoffset : ((x.natAbs - classInterval a : Nat) : Int) = x - classInterval a := by
      have hle := (classInterval_le a).trans ha.1
      omega
    rw [encodeInt_pos hpos ha he, Nat.mod_eq_of_lt hquot] at htail
    refine ⟨_, x.natAbs - classInterval a, by rw [if_neg hpos.not_gt, hoffset, cast_classInterval], rfl, ?_⟩
    rw [decide_eq_false hpos.not_gt, ← classInterval, binSizeOf_classInterval, if_neg hquot.not_ge]
    exact ⟨by omega, by omega, htail⟩

end Sys2Proof.Machine
end

section
/-! The image of the encoder (R139), the integers that share a code word (R141), its corner inputs (R136, R138) and its
composition from the units' operations (R142). -/

namespace Sys2Proof.Machine

/-- Settles O35: the branches of R130 at its corner inputs. -/
theorem encCornerInputs : Obligations.EncCornerInputs := fun s => by
  have answers {x : Int} (hx : IsInt32 x) : ∃ t, exec (.enc x) s = .next t ∧ t.out.word = encodeInt x :=
    ⟨_, exec_eq_answer _ s, word_respond_enc hx s⟩
  exact ⟨answers (by decide), answers (by decide), answers (by decide), answers (by decide), answers (by decide)⟩

/-! ## The image of the encoder (R139) -/

/-- R139: a code word is answered by `ENC` exactly when it is the code word of a 32-bit integer. -/
theorem enc_answers_iff (w : CodeWord) :
    (∃ (x : Int) (s : State) (o : OutPorts), IsInt32 x ∧ outputs (.enc x) s = some o ∧ o.word = w) ↔
      ∃ x, IsInt32 x ∧ encodeInt x = w := by
  constructor
  · rintro ⟨x, s, o, hx, ho, rfl⟩
    rw [out_of_outputs ho]
    exact ⟨x, hx, (word_respond_enc hx s).symm⟩
  · rintro ⟨x, hx, rfl⟩
    exact ⟨x, State.reset, _, hx, outputs_eq _ _, word_respond_enc hx State.reset⟩

/-- R139: every code word of a positive class is the code word of its class base plus the scaled tail. -/
theorem encodeInt_pos_canonical {k t : Nat} (hk : k ≠ 0) (ht : t < 256) (htk : t < 2 ^ k) :
    encodeInt (2 ^ k + t * 2 ^ sh false k : Nat) = ⟨k, t⟩ := by
  have hlt := mul_two_pow_sh_lt false ht htk
  have hfloor : IsFloorLog2 (2 ^ k + t * 2 ^ sh false k) k := by
    rw [IsFloorLog2, pow_succ]
    omega
  have hpos := Nat.two_pow_pos k
  rw [encodeInt_of_pos_class (by omega) hfloor hk, Int.natAbs_natCast, Nat.add_sub_cancel_left,
    Nat.mul_div_cancel _ (Nat.two_pow_pos _)]

/-- R139: every code word of a negative class is the code word of its class base plus the tail in the encoder's bin size, that
of the next smaller interval (R116). -/
theorem encodeInt_neg_canonical {a t : Nat} (ht : t < 256) (hta : t < 2 ^ a ∨ a = 0 ∧ t = 1) :
    encodeInt (-(2 ^ (a + 1) - t * 2 ^ sh true a : Nat)) = ⟨-(a + 1 : Nat), t⟩ := by
  have hpos := Nat.two_pow_pos a
  have hsucc : 2 ^ (a + 1) = 2 * 2 ^ a := pow_succ' 2 a
  have hlt : t * 2 ^ sh true a < 2 ^ a ∨ a = 0 ∧ t * 2 ^ sh true a = 1 := by
    rcases hta with h | ⟨rfl, rfl⟩
    · exact Or.inl (mul_two_pow_sh_lt true ht h)
    · exact Or.inr ⟨rfl, rfl⟩
  by_cases h0 : t = 0
  · have hfloor : IsFloorLog2 (2 ^ (a + 1)) (a + 1) := ⟨le_rfl, Nat.pow_lt_pow_right (by decide) (by omega)⟩
    have habs : (-((2 ^ (a + 1) : Nat) : Int)).natAbs = 2 ^ (a + 1) := by rw [Int.natAbs_neg, Int.natAbs_natCast]
    rw [h0, zero_mul, Nat.sub_zero, encodeInt_of_exact (habs.symm ▸ hfloor) ⟨a.succ_ne_zero, habs⟩, if_pos (by omega)]
  · have hu : 1 ≤ t * 2 ^ sh true a := Nat.mul_pos (Nat.pos_of_ne_zero h0) (Nat.two_pow_pos _)
    have hdiv : t * 2 ^ sh true a / 2 ^ sh true a = t := Nat.mul_div_cancel _ (Nat.two_pow_pos _)
    generalize t * 2 ^ sh true a = u at hlt hu hdiv ⊢
    have hle : u ≤ 2 ^ (a + 1) := by omega
    have habs : (-((2 ^ (a + 1) - u : Nat) : Int)).natAbs = 2 ^ (a + 1) - u := by rw [Int.natAbs_neg, Int.natAbs_natCast]
    have hfloor : IsFloorLog2 (2 ^ (a + 1) - u) a := by
      rw [IsFloorLog2]
      omega
    rw [encodeInt_neg (by omega) (habs.symm ▸ hfloor) (by omega), habs, Nat.sub_sub_self hle, hdiv, Nat.mod_eq_of_lt ht]
    congr 1
    push_cast
    omega

/-- R139: the canonical code words, class by class; class `-(a + 1)` is encoded with the interval `2^a`. -/
def IsCanonical (w : CodeWord) : Prop :=
  w.log = 0 ∧ w.tail ≤ 1
  ∨ (∃ k : Nat, k ≠ 0 ∧ k ≤ 30 ∧ w.log = k ∧ w.tail < 256 ∧ w.tail < 2 ^ k)
  ∨ ∃ a : Nat, a ≤ 30 ∧ w.log = -(a + 1 : Nat) ∧ w.tail < 256 ∧ (w.tail < 2 ^ a ∨ a = 0 ∧ w.tail = 1)

theorem isCanonical_encodeInt_of_pos {x : Int} (hx : IsInt32 x) (hpos : 0 < x) : IsCanonical (encodeInt x) := by
  obtain ⟨a, ha⟩ := exists_isFloorLog2 hpos.ne'
  obtain ⟨-, hhi⟩ := encodeInt_log_bounds hx
  have htail := encodeInt_tail_le x
  by_cases h0 : a = 0
  · have hone := (absLog_eq_zero_iff ha).1 h0
    obtain rfl : x = 1 := by omega
    exact Or.inl (by decide)
  · rw [encodeInt_of_pos_class hpos ha h0] at hhi htail ⊢
    dsimp only at hhi
    obtain ⟨hlow, hhigh⟩ := ha
    have hdiv : (x.natAbs - 2 ^ a) / 2 ^ sh false a ≤ x.natAbs - 2 ^ a := Nat.div_le_self _ _
    exact Or.inr (Or.inl ⟨a, h0, by omega, rfl, Nat.lt_succ_of_le htail, by dsimp only; omega⟩)

theorem isCanonical_encodeInt_of_neg {x : Int} (hx : IsInt32 x) (hneg : x < 0) : IsCanonical (encodeInt x) := by
  obtain ⟨k, hk, hlog⟩ := exists_isNegClass hneg
  obtain ⟨hlo, -⟩ := encodeInt_log_bounds hx
  have htail := encodeInt_tail_le x
  have hk1 := hk.1
  refine Or.inr (Or.inr ⟨k - 1, by omega, by omega, Nat.lt_succ_of_le htail, ?_⟩)
  by_cases h9 : k ≤ 9
  · rw [encodeInt_of_neg_class hneg hk h9]
    dsimp only
    obtain ⟨-, -, rfl | hlow⟩ := hk
    · omega
    · have hpow : 2 ^ k = 2 * 2 ^ (k - 1) := by rw [← pow_succ', Nat.sub_add_cancel hk1]
      have hpos := Nat.two_pow_pos (k - 1)
      omega
  · have hpow : 2 ^ 9 ≤ 2 ^ (k - 1) := Nat.pow_le_pow_right (by decide) (by omega)
    omega

/-- R139: the image of the encoder, both directions. -/
theorem exists_encodeInt_eq_iff (w : CodeWord) : (∃ x, IsInt32 x ∧ encodeInt x = w) ↔ IsCanonical w := by
  constructor
  · rintro ⟨x, hx, rfl⟩
    rcases lt_trichotomy x 0 with hneg | rfl | hpos
    · exact isCanonical_encodeInt_of_neg hx hneg
    · exact Or.inl (by decide)
    · exact isCanonical_encodeInt_of_pos hx hpos
  · obtain ⟨log, tail⟩ := w
    rintro (⟨hlog, ht⟩ | ⟨k, h0, h30, hlog, ht, htk⟩ | ⟨a, h30, hlog, ht, hta⟩)
    all_goals
      dsimp only at hlog ht
      subst hlog
    · interval_cases tail
      · exact ⟨0, by decide, rfl⟩
      · exact ⟨1, by decide, rfl⟩
    · refine ⟨_, ?_, encodeInt_pos_canonical h0 ht htk⟩
      have hlt : tail * 2 ^ sh false k < 2 ^ k := mul_two_pow_sh_lt false ht htk
      have hpow : 2 ^ k ≤ 2 ^ 30 := Nat.pow_le_pow_right (by decide) h30
      omega
    · refine ⟨_, ?_, encodeInt_neg_canonical ht hta⟩
      have hpow : 2 ^ (a + 1) ≤ 2 ^ 31 := Nat.pow_le_pow_right (by decide) (by omega)
      omega

/-- R139's table of the positive classes: below class 9 the class itself bounds the tail. -/
theorem exists_pos_class_iff (log : Int) (tail : Nat) :
    (∃ k : Nat, k ≠ 0 ∧ k ≤ 30 ∧ log = k ∧ tail < 256 ∧ tail < 2 ^ k) ↔
      (1 ≤ log ∧ log ≤ 8 ∧ tail < 2 ^ log.toNat) ∨ (9 ≤ log ∧ log ≤ 30 ∧ tail ≤ 255) := by
  constructor
  · rintro ⟨k, h0, h30, rfl, ht, htk⟩
    rw [Int.toNat_natCast]
    omega
  · rintro (⟨h1, h8, ht⟩ | ⟨h9, h30, ht⟩)
    · have hpow : 2 ^ log.toNat ≤ 2 ^ 8 := Nat.pow_le_pow_right (by decide) (by omega)
      exact ⟨log.toNat, by omega, by omega, by omega, by omega, ht⟩
    · have hpow : 2 ^ 9 ≤ 2 ^ log.toNat := Nat.pow_le_pow_right (by decide) (by omega)
      exact ⟨log.toNat, by omega, by omega, by omega, by omega, by omega⟩

/-- R139's table of the negative classes: down to class -9 the next class bounds the tail, but for the quirk of -1. -/
theorem exists_neg_class_iff (log : Int) (tail : Nat) :
    (∃ a : Nat, a ≤ 30 ∧ log = -(a + 1 : Nat) ∧ tail < 256 ∧ (tail < 2 ^ a ∨ a = 0 ∧ tail = 1)) ↔
      (log = -1 ∧ tail ≤ 1) ∨ (-9 ≤ log ∧ log ≤ -2 ∧ tail < 2 ^ (-log - 1).toNat)
        ∨ (-31 ≤ log ∧ log ≤ -10 ∧ tail ≤ 255) := by
  constructor
  · rintro ⟨a, h30, rfl, ht, hta⟩
    rw [show (-(-((a + 1 : Nat) : Int)) - 1).toNat = a by omega]
    by_cases h0 : a = 0
    · subst h0
      omega
    · omega
  · rintro (⟨rfl, ht⟩ | ⟨h9, h2, ht⟩ | ⟨h31, h10, ht⟩)
    · exact ⟨0, by omega, rfl, by omega, by omega⟩
    · have hpow : 2 ^ (-log - 1).toNat ≤ 2 ^ 8 := Nat.pow_le_pow_right (by decide) (by omega)
      exact ⟨(-log - 1).toNat, by omega, by omega, by omega, Or.inl ht⟩
    · have hpow : 2 ^ 9 ≤ 2 ^ (-log - 1).toNat := Nat.pow_le_pow_right (by decide) (by omega)
      exact ⟨(-log - 1).toNat, by omega, by omega, by omega, by omega⟩

/-- Settles O33: the integers of a class exhaust its canonical code words. -/
theorem canonicalWordsAreTheImageOfEnc : Obligations.CanonicalWordsAreTheImageOfEnc := by
  intro log tail
  rw [enc_answers_iff, exists_encodeInt_eq_iff, IsCanonical, exists_pos_class_iff, exists_neg_class_iff, or_assoc]

/-! ## Integers that share a code word (R141) -/

/-- R141: dividing by the bin size drops the low bits on which two integers of one positive class may differ. -/
theorem pos_quotient_eq_iff {m n a : Nat} (ha : 9 ≤ a) (hm : 2 ^ a ≤ m) (hn : 2 ^ a ≤ n) :
    (m - 2 ^ a) / 2 ^ sh false a = (n - 2 ^ a) / 2 ^ sh false a ↔ m / 2 ^ (a - 8) = n / 2 ^ (a - 8) := by
  rw [← pos_quotient_add ha hm, ← pos_quotient_add ha hn, Nat.add_right_cancel_iff]

/-- Settles O34: on either side the class is shared, so the words agree when the tails do. -/
theorem whichIntegersShareACodeWord : Obligations.WhichIntegersShareACodeWord := by
  refine ⟨fun s x y a o p h9 hx hy hx0 hy0 hxa hya ho hp => ?pos,
    fun s x y a o p h9 hx hy hx0 hy0 hxa hxa' hya hya' ho hp => ?neg,
    fun s x a o p h9 hpow hx0 hxa hxa' ho hp => ?power⟩
  case pos =>
    rw [out_of_outputs ho, out_of_outputs hp, word_respond_enc hx, word_respond_enc hy,
      encodeInt_of_pos_class hx0 hxa (by omega), encodeInt_of_pos_class hy0 hya (by omega), CodeWord.mk.injEq,
      and_iff_right rfl, pos_quotient_eq_iff h9 hxa.1 hya.1]
    obtain ⟨m, rfl⟩ := Int.eq_ofNat_of_zero_le hx0.le
    obtain ⟨n, rfl⟩ := Int.eq_ofNat_of_zero_le hy0.le
    norm_cast
  case neg =>
    rw [out_of_outputs ho, out_of_outputs hp, word_respond_enc hx, word_respond_enc hy,
      encodeInt_neg hx0 ⟨hxa.le, hxa'⟩ (by omega), encodeInt_neg hy0 ⟨hya.le, hya'⟩ (by omega), CodeWord.mk.injEq,
      and_iff_right rfl, sh_large true h9, if_pos rfl]
  case power =>
    have hcast := cast_two_pow (a + 1)
    have hpos := Nat.two_pow_pos (a + 1)
    have habs : (-2 ^ (a + 1) : Int).natAbs = 2 ^ (a + 1) := by omega
    have hfloor : IsFloorLog2 (-2 ^ (a + 1) : Int).natAbs (a + 1) := habs.symm ▸ isFloorLog2_two_pow (a + 1)
    rw [out_of_outputs ho, out_of_outputs hp, word_respond_enc (by omega), word_respond_enc hpow,
      encodeInt_neg hx0 ⟨hxa.le, hxa'⟩ (by omega), encodeInt_of_exact hfloor ⟨a.succ_ne_zero, habs⟩, if_pos (by omega),
      CodeWord.mk.injEq, and_iff_right (by push_cast; omega), sh_large true h9, if_pos rfl]

/-! ## The encoder from the units' operations (R142) -/

/-- R130 step 5: the general branch scales the raw offset down with the classifier's `neg` and `abs_log`. -/
theorem encodeInt_tail_of_not_exact {x : Int} {a : Nat} (h : IsFloorLog2 x.natAbs a)
    (he : ¬ (a ≠ 0 ∧ x.natAbs = 2 ^ a)) :
    (encodeInt x).tail = scaleDown (decide (x < 0)) a
      (if 0 < x then x - classInterval a else 2 ^ (-(encodeInt x).log).toNat + x).toNat := by
  have hne : decide (classInterval a = x.natAbs) = false := decide_eq_false (he ∘ (exact_iff h).1)
  rw [encodeInt_log_eq h, encodeInt, lmc_of (ne_zero_of_isFloorLog2 h) h, hne]
  rfl

/-- Settles O36: every port `BOFE` needs is one `CLS` has written. -/
theorem encComposesFromClsAndBofe : Obligations.EncComposesFromClsAndBofe := by
  refine ⟨fun s => ⟨_, _, exec_eq_answer _ s, rfl, exec_eq_answer _ s, word_respond_enc (by decide) s⟩,
    fun s x hx h0 => ?_⟩
  obtain ⟨a, ha⟩ := exists_isFloorLog2 h0
  have hlog := qLog_respond_cls_eq_log hx h0 s
  have hexact := cExact_respond_cls s ha
  refine ⟨_, _, exec_eq_answer _ s, exec_eq_answer _ s, status_respond_cls s h0, rfl, fun he => ?exact,
    fun he => ?general⟩
  case exact =>
    rw [word_respond_enc hx, hlog, encodeInt_exact ha (hexact.1 he)]
  case general =>
    have htail := encodeInt_tail_of_not_exact ha (mt hexact.2 (Bool.eq_false_iff.1 he))
    have hneg : (s.respond (responseOf (.cls x))).out.cNeg = decide (x < 0) :=
      Bool.eq_iff_iff.2 ((cNeg_respond_cls s ha).trans decide_eq_true_iff.symm)
    rw [hneg, cAbsLog_respond_cls s hx ha, yOut_respond_cls s hx ha, hlog]
    exact ⟨_, exec_eq_answer _ _, BitVec.eq_of_toInt_eq ((ports_respond_enc hx rfl s).1.trans hlog.symm),
      congrArg (zext 8) htail⟩

end Sys2Proof.Machine
end

section
/-! The decoder and the round trip (spec/43_decoder.md): the range it accepts, the bounds of what it answers, and what `DEC`
makes of `ENC`'s answer. -/

namespace Sys2Proof.Machine

/-! ## The decoded value by the sign of `log` (R150, R152) -/

theorem decodeInt_class_zero (tail : Nat) : decodeInt ⟨0, tail⟩ = tail := by
  rw [decodeInt_eq, sgn_zero, zero_mul, zero_add]
  exact congrArg Nat.cast (Nat.mul_one tail)

theorem decodeInt_pos_class {k : Nat} (hk : k ≠ 0) (tail : Nat) :
    decodeInt ⟨k, tail⟩ = 2 ^ k + (tail * 2 ^ sh false k : Nat) := by
  rw [decodeInt_eq, sgn_of_pos (by omega), one_mul, Int.natAbs_natCast, decide_eq_false (by omega)]

theorem decodeInt_neg_class {k : Nat} (hk : k ≠ 0) (tail : Nat) :
    decodeInt ⟨-k, tail⟩ = -2 ^ k + (tail * 2 ^ sh true k : Nat) := by
  rw [decodeInt_eq, sgn_of_neg (by omega), neg_one_mul, Int.natAbs_neg, Int.natAbs_natCast, decide_eq_true (by omega)]

/-! ## The accepted range (R151) -/

/-- R151: beyond the range already the class base leaves 32 bits. -/
theorem not_isInt32_decodeInt_zero {log : Int} (h : ¬ (-31 ≤ log ∧ log ≤ 30)) : ¬ IsInt32 (decodeInt ⟨log, 0⟩) := by
  rcases le_or_gt 0 log with hlog | hlog
  · obtain ⟨k, rfl⟩ := Int.eq_ofNat_of_zero_le hlog
    have hpow : 2 ^ 31 ≤ 2 ^ k := Nat.pow_le_pow_right (by decide) (by omega)
    have hcast := cast_two_pow k
    rw [decodeInt_pos_class (by omega), zero_mul]
    omega
  · obtain ⟨k, rfl⟩ := Int.exists_eq_neg_ofNat hlog.le
    have hpow : 2 ^ 32 ≤ 2 ^ k := Nat.pow_le_pow_right (by decide) (by omega)
    have hcast := cast_two_pow k
    rw [decodeInt_neg_class (by omega), zero_mul]
    omega

theorem logInRange_iff_fits (log : Int) :
    (-31 ≤ log ∧ log ≤ 30) ↔ ∀ u : Nat, u ≤ 255 → IsInt32 (decodeInt ⟨log, u⟩) := by
  constructor
  · rintro ⟨hlo, hhi⟩ u hu
    exact isInt32_decodeInt hlo hhi hu
  · intro hfits
    by_contra hout
    exact not_isInt32_decodeInt_zero hout (hfits 0 (by decide))

theorem status_respond_dec_iff (w : CodeWord) (s : State) :
    (s.respond (responseOf (.dec w))).out.status = okCode ↔ -31 ≤ w.log ∧ w.log ≤ 30 := by
  refine ⟨fun h => ?_, status_respond_dec_of_mem s⟩
  by_contra hout
  rw [status_respond_dec_of_notMem s hout] at h
  exact absurd h (by decide)

/-- Settles O37: the status says whether `log` is in the range, and the range is where every tail fits. -/
theorem decAcceptsExactlyWhatFits : Obligations.DecAcceptsExactlyWhatFits := by
  intro s log tail _
  have hstatus := status_respond_dec_iff ⟨log, tail⟩ s
  refine ⟨_, exec_eq_answer _ s, hstatus, ?_⟩
  simp only [← decodeInt_eq_binSizeOf]
  exact hstatus.trans (logInRange_iff_fits log)

/-- Settles O39: both operations scale the tail up by the same bin shift. -/
theorem decComposesFromBofd : Obligations.DecComposesFromBofd := by
  intro s log tail hlo hhi ht
  refine ⟨_, _, exec_eq_answer _ s, exec_eq_answer _ s, status_respond_dec_of_mem s ⟨hlo, hhi⟩, ?_⟩
  rw [yOut_respond_dec hlo hhi ht, yOut_respond_bofd s _ (by omega) ht]
  rfl

/-! ## Bounds of the decoded value (R153) -/

section Bounds

variable {k tail : Nat} (ht : tail ≤ 255)
include ht

theorem decodeInt_pos_small_bounds (hk : k ≤ 8) : 0 ≤ decodeInt ⟨k, tail⟩ ∧ decodeInt ⟨k, tail⟩ ≤ 2 ^ 8 + 255 := by
  by_cases h0 : k = 0
  · subst h0
    rw [Nat.cast_zero, decodeInt_class_zero]
    omega
  · have hcast := cast_two_pow k
    have hpos := Nat.two_pow_pos k
    have hpow : 2 ^ k ≤ 2 ^ 8 := Nat.pow_le_pow_right (by decide) hk
    rw [decodeInt_pos_class h0, sh_small false (by omega), pow_zero, mul_one]
    omega

theorem decodeInt_pos_large_bounds (h9 : 9 ≤ k) (h30 : k ≤ 30) :
    2 ^ k ≤ decodeInt ⟨k, tail⟩ ∧ decodeInt ⟨k, tail⟩ ≤ 2 ^ k + 255 * 2 ^ (k - 8)
      ∧ decodeInt ⟨k, tail⟩ < 2 ^ (k + 1) ∧ decodeInt ⟨k, tail⟩ ≤ 2143289344 := by
  have hsh : sh false k = k - 8 := sh_large false h9
  have hpow : 2 ^ k = 256 * 2 ^ (k - 8) := hsh ▸ two_pow_eq_mul_sh_false h9
  have htop : 2 ^ (k - 8) ≤ 2 ^ 22 := Nat.pow_le_pow_right (by decide) (by omega)
  have hscaled : tail * 2 ^ (k - 8) ≤ 255 * 2 ^ (k - 8) := Nat.mul_le_mul_right _ ht
  have hpos := Nat.two_pow_pos (k - 8)
  have hcast := cast_two_pow k
  have hcast' := cast_two_pow (k - 8)
  rw [decodeInt_pos_class (by omega), hsh, pow_succ]
  omega

theorem decodeInt_neg_small_bounds (h1 : 1 ≤ k) (h8 : k ≤ 8) :
    -2 ^ k ≤ decodeInt ⟨-k, tail⟩ ∧ decodeInt ⟨-k, tail⟩ ≤ -2 ^ k + 255 := by
  rw [decodeInt_neg_class (by omega), sh_small true (by omega), pow_zero, mul_one]
  omega

theorem decodeInt_neg_large_bounds (h9 : 9 ≤ k) (h31 : k ≤ 31) :
    -2 ^ k ≤ decodeInt ⟨-k, tail⟩ ∧ decodeInt ⟨-k, tail⟩ ≤ -2 ^ k + 255 * 2 ^ (k - 9)
      ∧ decodeInt ⟨-k, tail⟩ < -2 ^ (k - 1) ∧ -2 ^ 31 ≤ decodeInt ⟨-k, tail⟩ := by
  have hsh : sh true k = k - 9 := sh_large true h9
  have hpow : 2 ^ k = 512 * 2 ^ (k - 9) := hsh ▸ two_pow_eq_mul_sh_true h9
  have hhalf : 2 ^ k = 2 * 2 ^ (k - 1) := by rw [← pow_succ', Nat.sub_add_cancel (by omega)]
  have htop : 2 ^ k ≤ 2 ^ 31 := Nat.pow_le_pow_right (by decide) h31
  have hscaled : tail * 2 ^ (k - 9) ≤ 255 * 2 ^ (k - 9) := Nat.mul_le_mul_right _ ht
  have hpos := Nat.two_pow_pos (k - 9)
  have hcast := cast_two_pow k
  have hcast' := cast_two_pow (k - 9)
  have hcast'' := cast_two_pow (k - 1)
  rw [decodeInt_neg_class (by omega), hsh]
  omega

end Bounds

/-- Settles O38: each clause is the bound of its classes. -/
theorem decodedValueBounds : Obligations.DecodedValueBounds := by
  intro s log tail hlo hhi ht
  refine ⟨_, exec_eq_answer _ s, status_respond_dec_of_mem s ⟨hlo, hhi⟩, ?_⟩
  rw [yOut_respond_dec hlo hhi ht]
  refine ⟨fun h0 => ?zero, fun h0 h8 => ?posSmall, fun h9 => ?posLarge, fun h8 h1 => ?negSmall, fun h9 => ?negLarge⟩
  case zero => rw [h0, decodeInt_class_zero]
  case posSmall =>
    obtain ⟨k, rfl⟩ := Int.eq_ofNat_of_zero_le h0
    exact decodeInt_pos_small_bounds ht (by omega)
  case posLarge =>
    obtain ⟨k, rfl⟩ := Int.eq_ofNat_of_zero_le (show 0 ≤ log by omega)
    exact decodeInt_pos_large_bounds ht (by omega) (by omega)
  case negSmall =>
    obtain ⟨k, rfl⟩ := Int.exists_eq_neg_ofNat (show log ≤ 0 by omega)
    rw [Int.natAbs_neg, Int.natAbs_natCast]
    exact decodeInt_neg_small_bounds ht (by omega) (by omega)
  case negLarge =>
    obtain ⟨k, rfl⟩ := Int.exists_eq_neg_ofNat (show log ≤ 0 by omega)
    rw [Int.natAbs_neg, Int.natAbs_natCast]
    exact decodeInt_neg_large_bounds ht (by omega) (by omega)

/-! ## The round trip (R140, R155, R156) -/

/-- The ports carry the encoder's code word to the decoder and its integer out again. -/
theorem roundTripGives_iff {x : Int} (hx : IsInt32 x) (s : State) (y : Int) :
    RoundTripGives s x y ↔ decodeInt (encodeInt x) = y := by
  obtain ⟨hlo, hhi⟩ := encodeInt_log_bounds hx
  have hy (t : State) := yOut_respond_dec hlo hhi (encodeInt_tail_le x) t
  simp only [RoundTripGives, exec_next_iff]
  constructor
  · rintro ⟨_, _, rfl, -, rfl, -, rfl⟩
    rw [word_respond_enc hx, ← hy]
  · rintro rfl
    refine ⟨_, _, rfl, rfl, rfl, ?_, ?_⟩
    · rw [word_respond_enc hx]
      exact status_respond_dec_of_mem _ ⟨hlo, hhi⟩
    · rw [word_respond_enc hx, ← hy]

section RoundTrip

variable {x : Int} {a : Nat}

/-- R155: encoding drops the remainder by the bin size, and decoding scales back by the same. -/
theorem roundTrip_of_pos (hx : 0 < x) (h : IsFloorLog2 x.natAbs a) (h1 : a ≠ 0) :
    decodeInt (encodeInt x) = x - x % 2 ^ sh false a := by
  obtain ⟨m, rfl⟩ := Int.eq_ofNat_of_zero_le hx.le
  rw [encodeInt_of_pos_class hx h h1, decodeInt_pos_class h1]
  rw [Int.natAbs_natCast] at h ⊢
  have hle : sh false a ≤ a := by
    rw [sh_eq]
    split_ifs <;> omega
  obtain ⟨c, hc⟩ : 2 ^ sh false a ∣ 2 ^ a := pow_dvd_pow 2 hle
  have hsplit : m - 2 ^ a + 2 ^ sh false a * c = m := by
    have := h.1
    omega
  have hmod : m % 2 ^ sh false a = (m - 2 ^ a) % 2 ^ sh false a := by
    conv_lhs => rw [← hsplit, Nat.add_mul_mod_self_left]
  have hdiv := Nat.div_add_mod' (m - 2 ^ a) (2 ^ sh false a)
  have hcast := cast_two_pow a
  have hlow := h.1
  have hmodCast : ((m % 2 ^ sh false a : Nat) : Int) = (m : Int) % 2 ^ sh false a := by norm_cast
  omega

/-- R155: the negative classes down to -9 are not scaled on either side. -/
theorem roundTrip_of_neg_small (hx : x < 0) (hlow : -512 ≤ x) : decodeInt (encodeInt x) = x := by
  obtain ⟨k, hk, -⟩ := exists_isNegClass hx
  have h512 : IsNegClass 512 9 := isNegClass_two_pow (by decide)
  have hk9 : k ≤ 9 := isNegClass_mono hk h512 (by omega)
  have hsh : sh true k = 0 := by
    rw [sh_eq, if_pos rfl]
    split_ifs <;> omega
  have hcast := cast_two_pow k
  have hk1 := hk.1
  have hhigh := hk.2.1
  rw [encodeInt_of_neg_class hx hk hk9, decodeInt_neg_class (by omega), hsh, pow_zero, mul_one]
  omega

/-- R140: an exact power has tail 0. -/
theorem roundTrip_of_neg_exact (hx : x < 0) (h : IsFloorLog2 x.natAbs a) (he : a ≠ 0 ∧ x.natAbs = 2 ^ a) :
    decodeInt (encodeInt x) = x := by
  have hcast := cast_two_pow a
  rw [encodeInt_of_exact h he, if_pos hx, decodeInt_neg_class he.1, zero_mul]
  omega

/-- R156: the decoder scales the tail by twice the encoder's bin size. -/
theorem roundTrip_of_neg (hx : x < 0) (h : IsFloorLog2 x.natAbs a) (he : x.natAbs ≠ 2 ^ a) (h9 : 9 ≤ a) :
    decodeInt (encodeInt x)
      = -2 ^ (a + 1) + (((2 ^ (a + 1) - x.natAbs) / 2 ^ (a - 9) % 256 : Nat) : Int) * 2 ^ (a - 8) := by
  have hlog : -(a : Int) - 1 = -(a + 1 : Nat) := by
    push_cast
    omega
  rw [encodeInt_neg hx h (by omega), hlog, decodeInt_neg_class a.succ_ne_zero, sh_large true h9, sh_large true (by omega),
    if_pos rfl, Nat.cast_mul, cast_two_pow]
  rfl

end RoundTrip

theorem nine_le_absLog {x : Int} {a : Nat} (h : IsFloorLog2 x.natAbs a) (hx : 512 ≤ x.natAbs) : 9 ≤ a :=
  isFloorLog2_mono (show IsFloorLog2 512 9 by decide) h hx

/-- R155: small integers come back. -/
theorem roundTrip_of_small {x : Int} (hlo : -512 ≤ x) (hhi : x ≤ 512) : decodeInt (encodeInt x) = x := by
  rcases lt_trichotomy x 0 with hneg | rfl | hpos
  · exact roundTrip_of_neg_small hneg hlo
  · rfl
  · obtain ⟨a, ha⟩ := exists_isFloorLog2 hpos.ne'
    by_cases h0 : a = 0
    · have hone := (absLog_eq_zero_iff ha).1 h0
      obtain rfl : x = 1 := by omega
      rfl
    · rw [roundTrip_of_pos hpos ha h0]
      by_cases h9 : a < 9
      · rw [sh_small false h9, pow_zero, Int.emod_one, sub_zero]
      · have hpow : 2 ^ 9 ≤ 2 ^ a := Nat.pow_le_pow_right (by decide) (by omega)
        have hlow := ha.1
        obtain rfl : x = 512 := by omega
        rw [isFloorLog2_unique ha (show IsFloorLog2 512 9 by decide)]
        rfl

/-- Settles O41: the remainder by the bin size is what the round trip loses. -/
theorem positiveRoundTripClearsLowBits : Obligations.PositiveRoundTripClearsLowBits := by
  refine ⟨fun s x hlo hhi => ?small, fun s x a hx h512 ha => ?large⟩
  case small =>
    exact (roundTripGives_iff (by omega) s x).2 (roundTrip_of_small hlo hhi)
  case large =>
    have h9 := nine_le_absLog ha (by omega)
    have hsh : sh false a = a - 8 := sh_large false h9
    have hpos : (0 : Int) < 2 ^ (a - 8) := by positivity
    have hlow := Int.emod_nonneg x hpos.ne'
    have hhigh := Int.emod_lt_of_pos x hpos
    have hpow : 2 ^ a = 256 * 2 ^ (a - 8) := hsh ▸ two_pow_eq_mul_sh_false h9
    have hcast := cast_two_pow (a - 8)
    have hfloor := ha.1
    refine ⟨(roundTripGives_iff hx s _).2 (hsh ▸ roundTrip_of_pos (by omega) ha (by omega)), hlow, hhigh, ?_⟩
    omega

/-! ### The error beyond -512 (R156) -/

section NegError

variable {P q rho r : Nat} (hq : q ≤ 511) (hrho : rho < P) (hr : r = q * P + rho)

/-- R156: the products of the quotient with the encoder's bin size that decide where the error lies. -/
theorem quotient_mul_cases (P : Nat) (hq : q ≤ 511) :
    (q = 0 ∧ q * P = 0) ∨ (q = 1 ∧ q * P = P) ∨ (2 ≤ q ∧ q ≤ 255 ∧ 2 * P ≤ q * P ∧ q * P ≤ 255 * P)
      ∨ (256 ≤ q ∧ 256 * P ≤ q * P ∧ q * P ≤ 511 * P) := by
  rcases Nat.lt_or_ge q 2 with h2 | h2
  · interval_cases q <;> simp
  · rcases Nat.lt_or_ge q 256 with h256 | h256
    · exact Or.inr (Or.inr (Or.inl ⟨h2, by omega, Nat.mul_le_mul_right P h2, Nat.mul_le_mul_right P (by omega)⟩))
    · exact Or.inr (Or.inr (Or.inr ⟨h256, Nat.mul_le_mul_right P h256, Nat.mul_le_mul_right P hq⟩))

include hq hrho hr

/-- R156: without overflow the decoder's doubled bin size leaves an error of `q P - rho`. -/
theorem error_of_small_quotient (h : q ≤ 255) :
    ((q % 256 : Nat) : Int) * (2 * P) - r = q * P - rho
      ∧ -((P : Int) - 1) ≤ ((q % 256 : Nat) : Int) * (2 * P) - r
      ∧ ((q % 256 : Nat) : Int) * (2 * P) - r ≤ 255 * P := by
  have hcases := quotient_mul_cases P hq
  have hwrap : ((q % 256 : Nat) : Int) * (2 * P) = 2 * (q * P : Nat) := by
    rw [Nat.mod_eq_of_lt (by omega)]
    push_cast
    ring
  rw [hwrap, ← Nat.cast_mul]
  omega

/-- R156: with overflow the wrapped tail is 256 less, which the decoder counts as 512 bin sizes. -/
theorem error_of_large_quotient (h : 256 ≤ q) :
    ((q % 256 : Nat) : Int) * (2 * P) - r = ((q : Int) - 512) * P - rho
      ∧ -257 * (P : Int) + 1 ≤ ((q % 256 : Nat) : Int) * (2 * P) - r
      ∧ ((q % 256 : Nat) : Int) * (2 * P) - r ≤ -P := by
  have hcases := quotient_mul_cases P hq
  have hwrap : ((q % 256 : Nat) : Int) * (2 * P) = 2 * (q * P : Nat) - 512 * P := by
    rw [show q % 256 = q - 256 by omega, Nat.cast_sub h]
    push_cast
    ring
  rw [hwrap, sub_mul, ← Nat.cast_mul]
  omega

/-- R156: the error is smaller than the encoder's bin size only in the two lowest quotients (90_conflicts.md C15). -/
theorem error_ne_zero_and_natAbs_lt_iff (hr0 : 1 ≤ r) :
    ((q % 256 : Nat) : Int) * (2 * P) - r ≠ 0
      ∧ ((((q % 256 : Nat) : Int) * (2 * P) - r).natAbs < P ↔ r < 2 * P ∧ r ≠ P) := by
  have hcases := quotient_mul_cases P hq
  rcases Nat.lt_or_ge q 256 with h | h
  · obtain ⟨herror, -, -⟩ := error_of_small_quotient hq hrho hr (Nat.le_of_lt_succ h)
    rw [herror, ← Nat.cast_mul]
    omega
  · obtain ⟨-, -, herror⟩ := error_of_large_quotient hq hrho hr h
    omega

end NegError

/-- Settles O42: the error is taken in units of the encoder's bin size, half the decoder's. -/
theorem negativeRoundTripError : Obligations.NegativeRoundTripError := by
  intro s x a hx h512 ha he
  have hneg : x < 0 := by omega
  have h9 := nine_le_absLog ha (by omega)
  have hquot := neg_quotient_lt ha (he ·.2)
  rw [sh_large true h9, if_pos rfl] at hquot
  have hoffset := (neg_offset_bounds ha (he ·.2)).1
  have hx_eq : x = -2 ^ (a + 1) + (2 ^ (a + 1) - x.natAbs : Nat) := by
    have hcast := cast_two_pow (a + 1)
    have hhigh := ha.2
    omega
  have hdouble : (2 : Nat) ^ (a - 8) = 2 * 2 ^ (a - 9) := by rw [← pow_succ', show a - 9 + 1 = a - 8 by omega]
  have hvalue := roundTrip_of_neg hneg ha he h9
  generalize hr : 2 ^ (a + 1) - x.natAbs = r at hquot hoffset hx_eq hvalue
  have hq := Nat.le_of_lt_succ hquot
  have hrho := Nat.mod_lt r (Nat.two_pow_pos (a - 9))
  have hdiv : r = r / 2 ^ (a - 9) * 2 ^ (a - 9) + r % 2 ^ (a - 9) := (Nat.div_add_mod' ..).symm
  have herror : -2 ^ (a + 1) + ((r / 2 ^ (a - 9) % 256 : Nat) : Int) * 2 ^ (a - 8) - x
      = ((r / 2 ^ (a - 9) % 256 : Nat) : Int) * (2 * (2 ^ (a - 9) : Nat)) - r := by
    rw [← cast_two_pow (a - 8), hdouble, Nat.cast_mul]
    conv_lhs => rw [hx_eq]
    push_cast
    ring
  have hsmall := error_of_small_quotient hq hrho hdiv
  have hlarge := error_of_large_quotient hq hrho hdiv
  have hiff := error_ne_zero_and_natAbs_lt_iff hq hrho hdiv hoffset
  rw [← herror] at hsmall hlarge hiff
  rw [cast_two_pow] at hsmall hlarge
  rw [← hdouble] at hiff
  obtain ⟨hne, hsize⟩ := hiff
  exact ⟨_, r, _, _, rfl, rfl, rfl, (roundTripGives_iff hx s _).2 hvalue, rfl, hsmall, hlarge, sub_ne_zero.1 hne, hsize⟩

/-! ### The exact range (R140) -/

/-- R140: a positive exact power has no low bits to lose. -/
theorem roundTrip_of_pos_iff {x : Int} {a : Nat} (hx : 512 < x) (h : IsFloorLog2 x.natAbs a) :
    decodeInt (encodeInt x) = x ↔ x % 2 ^ (a - 8) = 0 := by
  have h9 := nine_le_absLog h (by omega)
  have hsh : sh false a = a - 8 := sh_large false h9
  rw [roundTrip_of_pos (by omega) h (by omega), hsh]
  omega

theorem emod_two_pow_eq_zero_of_isSignedPower {x : Int} {a : Nat} (hx : 0 < x) (h : IsFloorLog2 x.natAbs a)
    (hp : IsSignedPower x) : x % 2 ^ (a - 8) = 0 := by
  obtain ⟨k, hk⟩ := hp
  obtain rfl := isFloorLog2_unique h (hk ▸ isFloorLog2_two_pow k)
  have hcast := cast_two_pow a
  have hxpow : x = 2 ^ a := by omega
  rw [hxpow]
  exact Int.emod_eq_zero_of_dvd (pow_dvd_pow 2 (Nat.sub_le a 8))

/-- R140: beyond -512 only the exact powers come back. -/
theorem roundTrip_of_neg_iff {x : Int} (hx : IsInt32 x) (h512 : x < -512) :
    decodeInt (encodeInt x) = x ↔ IsSignedPower x := by
  have hneg : x < 0 := by omega
  obtain ⟨a, ha⟩ := exists_isFloorLog2 hneg.ne
  have h9 := nine_le_absLog ha (by omega)
  by_cases he : x.natAbs = 2 ^ a
  · exact iff_of_true (roundTrip_of_neg_exact hneg ha ⟨by omega, he⟩) ⟨a, he⟩
  · refine iff_of_false (fun hback => ?_) fun ⟨k, hk⟩ => ?_
    · obtain ⟨y, _, _, _, -, -, -, hy, -, -, -, hne, -⟩ := negativeRoundTripError State.reset x a hx h512 ha he
      exact hne (((roundTripGives_iff hx _ y).1 hy).symm.trans hback)
    · exact he (isFloorLog2_unique ha (hk ▸ isFloorLog2_two_pow k) ▸ hk)

/-- Settles O40: 512 and below, above, and beyond -512. -/
theorem exactRoundTripRange : Obligations.ExactRoundTripRange := by
  intro s x hx
  rw [roundTripGives_iff hx]
  by_cases hsmall : -512 ≤ x ∧ x ≤ 512
  · exact iff_of_true (roundTrip_of_small hsmall.1 hsmall.2) (Or.inl hsmall)
  · rw [or_iff_right hsmall]
    rcases lt_or_gt_of_ne (show x ≠ 0 by omega) with hneg | hpos
    · rw [roundTrip_of_neg_iff hx (by omega), or_iff_left (by omega)]
    · have h512 : 512 < x := by omega
      obtain ⟨a, ha⟩ := exists_isFloorLog2 hpos.ne'
      rw [roundTrip_of_pos_iff h512 ha]
      constructor
      · exact fun hmod => Or.inr ⟨h512, fun b hb => isFloorLog2_unique ha hb ▸ hmod⟩
      · rintro (hp | ⟨-, hmod⟩)
        · exact emod_two_pow_eq_zero_of_isSignedPower hpos ha hp
        · exact hmod a ha

end Sys2Proof.Machine
end

section
/-! The comparator's order (spec/44_comparator.md section 3): the laws of the four comparisons, their form in gates, and the
order of the integers they compare. -/

namespace Sys2Proof.Machine

/-! ## The order of the keys (R170, R175) -/

section Keys

variable {a b c : CodeWord}

theorem keyBelow_irrefl (a : CodeWord) : ¬ KeyBelow a a := by
  unfold KeyBelow
  omega

theorem keyBelow_trans (hab : KeyBelow a b) (hbc : KeyBelow b c) : KeyBelow a c := by
  unfold KeyBelow at *
  omega

theorem keyBelow_asymm (hab : KeyBelow a b) : ¬ KeyBelow b a := fun hba => keyBelow_irrefl a (keyBelow_trans hab hba)

/-- R175: two keys are comparable, and tie only when neither is below the other. -/
theorem keyBelow_or_keyTie_iff (a b : CodeWord) : KeyBelow a b ∨ KeyTie a b ↔ ¬ KeyBelow b a := by
  unfold KeyBelow KeyTie
  omega

theorem keyTie_iff (a b : CodeWord) : KeyTie a b ↔ ¬ KeyBelow a b ∧ ¬ KeyBelow b a := by
  unfold KeyBelow KeyTie
  omega

/-- R175: a key not below another is not below one that is. -/
theorem not_keyBelow_trans (hba : ¬ KeyBelow b a) (hcb : ¬ KeyBelow c b) : ¬ KeyBelow c a := by
  unfold KeyBelow at *
  omega

theorem keyLe_eq_not_keyLt (a b : CodeWord) : keyLe a b = !keyLt b a := by
  rw [Bool.eq_iff_iff, keyLe_iff, keyBelow_or_keyTie_iff, Bool.not_eq_true', ← Bool.not_eq_true, keyLt_iff]

end Keys

/-! ## The verdicts -/

section Verdicts

variable (a b : CodeWord) (s : State)

theorem verdict_cmplt : verdict (.cmplt a b) s = some (keyLt a b) := verdict_of_cmp rfl s

theorem verdict_cmple : verdict (.cmple a b) s = some (keyLe a b) := verdict_of_cmp rfl s

theorem verdict_cmpgt : verdict (.cmpgt a b) s = some (keyLt b a) := verdict_of_cmp rfl s

theorem verdict_cmpge : verdict (.cmpge a b) s = some (keyLe b a) := verdict_of_cmp rfl s

theorem verdict_cmplt_true_iff : verdict (.cmplt a b) s = some true ↔ KeyBelow a b := by
  rw [verdict_cmplt, Option.some_inj, keyLt_iff]

theorem verdict_cmplt_false_iff : verdict (.cmplt a b) s = some false ↔ ¬ KeyBelow a b := by
  rw [verdict_cmplt, Option.some_inj, ← Bool.not_eq_true, keyLt_iff]

theorem verdict_cmpgt_true_iff : verdict (.cmpgt a b) s = some true ↔ KeyBelow b a := verdict_cmplt_true_iff b a s

theorem verdict_cmpgt_false_iff : verdict (.cmpgt a b) s = some false ↔ ¬ KeyBelow b a := verdict_cmplt_false_iff b a s

theorem verdict_cmple_true_iff : verdict (.cmple a b) s = some true ↔ ¬ KeyBelow b a := by
  rw [verdict_cmple, Option.some_inj, keyLe_iff, keyBelow_or_keyTie_iff]

theorem verdict_cmpge_true_iff : verdict (.cmpge a b) s = some true ↔ ¬ KeyBelow a b := verdict_cmple_true_iff b a s

end Verdicts

/-- Settles O43: each law is one of the strict order of the keys. -/
theorem comparisonLaws : Obligations.ComparisonLaws := by
  intro s a b c
  have hle (a b : CodeWord) : verdict (.cmple a b) s = (verdict (.cmpgt a b) s).map (! ·) := by
    rw [verdict_cmple, verdict_cmpgt, keyLe_eq_not_keyLt]
    rfl
  simp only [verdict_cmplt_true_iff, verdict_cmplt_false_iff, verdict_cmpgt_true_iff, verdict_cmpgt_false_iff,
    verdict_cmple_true_iff, verdict_cmpge_true_iff]
  exact ⟨rfl, rfl, hle a b, hle b a, keyBelow_irrefl a, keyBelow_irrefl a, not_keyBelow_trans, keyBelow_trans,
    fun ⟨hab, hba⟩ => keyBelow_asymm hab hba, and_comm, by rw [and_comm, keyTie_iff]⟩

/-! ## The comparator in gates (R179) -/

/-- R179: `lt_log`, and within one class the comparison of the tails in the direction of the sign bit. -/
theorem keyLt_words (c : Command) :
    keyLt c.wordA c.wordB = (c.aLog.slt c.bLog || (c.aLog == c.bLog && c.aLog != 0
      && (if c.aLog.msb then c.bTail.ult c.aTail else c.aTail.ult c.bTail))) := by
  have heq : c.aLog = c.bLog ↔ c.aLog.toInt = c.bLog.toInt := BitVec.toInt_inj.symm
  have hzero : c.aLog = 0 ↔ c.aLog.toInt = 0 := (sint_eq_zero_iff c.aLog).symm
  rw [Bool.eq_iff_iff, keyLt_iff, BitVec.msb_eq_toInt]
  simp only [KeyBelow, Command.wordA, Command.wordB, Bool.or_eq_true, Bool.and_eq_true, beq_iff_eq, bne_iff_ne,
    BitVec.slt_iff_toInt_lt, Bool.ite_eq_true_distrib, BitVec.ult_iff_toNat_lt, decide_eq_true_eq, sint, uint,
    Ne, heq, hzero]
  split_ifs <;> omega

/-- R179: `eq_log` with log 0 or equal tails. -/
theorem keyEq_words (c : Command) :
    decide (key c.wordA = key c.wordB) = (c.aLog == c.bLog && (c.aLog == 0 || c.aTail == c.bTail)) := by
  rw [Bool.eq_iff_iff, decide_eq_true_iff, key_eq_iff]
  simp only [KeyTie, Command.wordA, Command.wordB, Bool.or_eq_true, Bool.and_eq_true, beq_iff_eq, BitVec.toInt_inj,
    BitVec.toNat_inj, sint_eq_zero_iff]

/-- Settles O44: `keyLt`, and `keyLe` as `keyLt` or equal keys, gate by gate. -/
theorem comparatorLogicForm : Obligations.ComparatorLogicForm := by
  refine fun s c => ⟨fun hop => ?lt, fun hop => ?le⟩
  case lt => rw [decode_cmplt hop, verdict_cmplt, keyLt_words]
  case le => rw [decode_cmple hop, verdict_cmple, keyLe, keyLt_words, keyEq_words]

/-! ## The comparator against the integers (R176) -/

section IntegerOrder

variable {u v : Int}

/-- R176: in different classes the larger integer has the larger class. -/
theorem keyBelow_of_log_ne (h : u < v) (hne : (encodeInt u).log ≠ (encodeInt v).log) :
    KeyBelow (encodeInt u) (encodeInt v) :=
  Or.inl (lt_of_le_of_ne (encodeInt_log_mono h.le) hne)

/-- R176: within a positive class the tail never falls. -/
theorem keyBelow_of_pos_class (h : u < v) (hlog : (encodeInt u).log = (encodeInt v).log) (hpos : 0 < (encodeInt u).log)
    (hne : (encodeInt u).tail ≠ (encodeInt v).tail) : KeyBelow (encodeInt u) (encodeInt v) := by
  have hsign := encodeInt_log_sign u
  have hu : 0 < u := by omega
  have hv : 0 < v := hu.trans h
  obtain ⟨a, ha⟩ := exists_isFloorLog2 hu.ne'
  obtain ⟨b, hb⟩ := exists_isFloorLog2 hv.ne'
  have hloga := encodeInt_log_of_pos hu ha
  have hlogb := encodeInt_log_of_pos hv hb
  obtain rfl : a = b := by omega
  refine Or.inr ⟨hlog, Or.inl ⟨hpos, lt_of_le_of_ne ?_ hne⟩⟩
  rw [encodeInt_of_pos_class hu ha (by omega), encodeInt_of_pos_class hv hb (by omega)]
  exact Nat.div_le_div_right (by omega)

/-- R176: within a negative class down to -9 the tail is the distance from the class base, so the larger integer has the lower
key. -/
theorem keyBelow_of_neg_class (h : u < v) (hlog : (encodeInt u).log = (encodeInt v).log) (hneg : (encodeInt u).log < 0)
    (hlow : -512 ≤ u) : KeyBelow (encodeInt v) (encodeInt u) := by
  have hu : u < 0 := (encodeInt_log_sign u).1.1 hneg
  have hv : v < 0 := (encodeInt_log_sign v).1.1 (hlog ▸ hneg)
  obtain ⟨k, hk, hlogk⟩ := exists_isNegClass hu
  obtain ⟨j, hj, hlogj⟩ := exists_isNegClass hv
  obtain rfl : k = j := by omega
  have h512 : IsNegClass 512 9 := isNegClass_two_pow (by decide)
  have hk9 : k ≤ 9 := isNegClass_mono hk h512 (by omega)
  refine Or.inr ⟨hlog.symm, Or.inr ⟨hlog ▸ hneg, ?_⟩⟩
  have hbound := hk.2.1
  rw [encodeInt_of_neg_class hu hk hk9, encodeInt_of_neg_class hv hj hk9]
  dsimp only
  omega

end IntegerOrder

/-- Settles O45: the rows of the table, each from the code words of its integers. -/
theorem comparatorAgainstIntegerOrder : Obligations.ComparatorAgainstIntegerOrder := by
  intro s u v o p hu hv huv ho hp
  have hou : o.word = encodeInt u := by rw [out_of_outputs ho, word_respond_enc hu]
  have hpv : p.word = encodeInt v := by rw [out_of_outputs hp, word_respond_enc hv]
  rw [hou, hpv]
  simp only [verdict_cmplt_true_iff, verdict_cmplt_false_iff, verdict_cmpgt_true_iff, verdict_cmpgt_false_iff]
  refine ⟨keyBelow_of_log_ne huv, keyBelow_of_pos_class huv, fun heq => ?same, fun hu0 hv1 => ?zeroOne,
    fun hlog hneg hlow => ?reversed⟩
  case same =>
    rw [heq]
    exact ⟨keyBelow_irrefl _, keyBelow_irrefl _⟩
  case zeroOne =>
    subst hu0 hv1
    exact (keyTie_iff _ _).1 ⟨rfl, Or.inl rfl⟩
  case reversed =>
    have hbelow := keyBelow_of_neg_class huv hlog hneg hlow
    exact ⟨keyBelow_asymm hbelow, hbelow⟩

end Sys2Proof.Machine
end

section
/-! Arrays of code words (spec/20_memory.md section 1) and the host's macros (spec/45_arithmetic_host.md). -/

namespace Sys2Proof.Machine

/-! ## Packed arrays (R42) -/

theorem bytesOfWords_cons (w : CodeWord) (ws : List CodeWord) :
    bytesOfWords (w :: ws) = sext 8 w.log :: zext 8 w.tail :: bytesOfWords ws := rfl

theorem length_bytesOfWords (ws : List CodeWord) : (bytesOfWords ws).length = 2 * ws.length := by
  induction ws with
  | nil => rfl
  | cons w ws ih =>
    rw [bytesOfWords_cons, List.length_cons, List.length_cons, ih, List.length_cons]
    rfl

/-- R42: word `i` lies at offsets `2i` and `2i + 1`. -/
theorem getElem?_bytesOfWords {ws : List CodeWord} {i : Nat} {w : CodeWord} (h : ws[i]? = some w) :
    (bytesOfWords ws)[2 * i]? = some (sext 8 w.log) ∧ (bytesOfWords ws)[2 * i + 1]? = some (zext 8 w.tail) := by
  induction ws generalizing i with
  | nil => simp at h
  | cons v ws ih =>
    cases i with
    | zero =>
      obtain rfl : v = w := Option.some.inj h
      exact ⟨rfl, rfl⟩
    | succ i => exact ih h

/-- Settles O47: the two bytes of word `i` read back as the word. -/
theorem storedArrayIsPacked : Obligations.StoredArrayIsPacked := by
  intro ws i w hws hi
  obtain ⟨hlog, htail⟩ := getElem?_bytesOfWords hi
  refine ⟨length_bytesOfWords ws, hlog, htail, ?_⟩
  rw [wordAt, hlog, htail]
  exact congrArg some (wordOfBytes_sext_zext (hws w (List.mem_of_getElem? hi)))

/-! ## The macros (R190, R191, R193) -/

section Macros

variable {op : MacroOp} {p q : MacroOperand} {u v : Int} {e : MacroStop}

theorem answersExactly_of_values (hp : operandValue p = .ok u) (hq : operandValue q = .ok v) :
    AnswersExactly op p q u v := by
  rw [AnswersExactly, qopD_of_values hp hq]
  exact ⟨fitResult_of_fits, fitResult_of_wide⟩

theorem qopD_of_left_stop (hp : operandValue p = .error e) : qopD op p q = .error e := by
  rw [qopD, hp]

theorem qopD_of_right_stop (hp : operandValue p = .ok u) (hq : operandValue q = .error e) : qopD op p q = .error e := by
  rw [qopD, hp, hq]

/-- R193: what policy (a) answers fits 32 bits. -/
theorem isInt32_of_qopD {y : Int} (h : qopD op p q = .ok y) : IsInt32 y := by
  cases hp : operandValue p with
  | error e => rw [qopD_of_left_stop hp] at h; cases h
  | ok u =>
    cases hq : operandValue q with
    | error e => rw [qopD_of_right_stop hp hq] at h; cases h
    | ok v =>
      rw [qopD_of_values hp hq] at h
      obtain ⟨hfits, rfl⟩ := fitResult_ok_iff.1 h
      exact hfits

theorem qopQ_of_ok {y : Int} (h : qopD op p q = .ok y) : qopQ op p q = .ok (encodeInt y) := by
  rw [qopQ, h]

theorem qopQ_of_error (h : qopD op p q = .error e) : qopQ op p q = .error e := by
  rw [qopQ, h]

end Macros

/-! ### Code-word operands through `DEC` -/

section WordOperands

variable {w : CodeWord} {s : State} {o : OutPorts} (ho : outputs (.dec w) s = some o)
include ho

/-- R191: when `DEC` answers OK the operand's value is what it answers. -/
theorem operandValue_of_dec_ok (hw : w.WellFormed) (hok : o.status = okCode) :
    operandValue (.word w) = .ok (sint o.yOut) := by
  obtain ⟨log, tail⟩ := w
  rw [out_of_outputs ho, status_respond_dec_iff] at hok
  obtain ⟨hlo, hhi⟩ := hok
  rw [operandValue_word_of_inRange ⟨hlo, hhi⟩, out_of_outputs ho, yOut_respond_dec hlo hhi hw.2.2]

/-- R191: a `LOG_RANGE` of `DEC` stops the operand. -/
theorem operandValue_of_dec_logRange (hstatus : o.status = 3) : operandValue (.word w) = .error (.status .logRange) := by
  refine operandValue_word_of_outside fun hin => ?_
  rw [out_of_outputs ho, status_respond_dec_of_mem s hin] at hstatus
  exact absurd hstatus (by decide)

end WordOperands

/-- R191: the second operand's `LOG_RANGE` is the outcome, whether it is reached or the first operand has stopped alike. -/
theorem qopD_of_right_logRange {op : MacroOp} {p : CodeWord} {q : MacroOperand}
    (hq : operandValue q = .error (.status .logRange)) : qopD op (.word p) q = .error (.status .logRange) := by
  by_cases hp : -31 ≤ p.log ∧ p.log ≤ 30
  · exact qopD_of_right_stop (operandValue_word_of_inRange hp) hq
  · exact qopD_of_left_stop (operandValue_word_of_outside hp)

/-- Settles O48: the operands' values decide both policies. -/
theorem macrosRunDecThenTheHostThenEnc : Obligations.MacrosRunDecThenTheHostThenEnc := by
  refine ⟨fun s op p q v o r hp hq ho hr => ?operands,
    fun op u v => answersExactly_of_values (operandValue_int u) (operandValue_int v),
    fun s op p q y o hy ho => ?policies, fun op p q e => qopQ_of_error⟩
  case operands =>
    refine ⟨fun hok hok' => ?_, fun hstop => ?_, fun hstop => ?_, fun hstop => ?_⟩
    · have hpv := operandValue_of_dec_ok ho hp hok
      have hqv := operandValue_of_dec_ok hr hq hok'
      exact ⟨answersExactly_of_values hpv hqv, answersExactly_of_values hpv (operandValue_int v),
        answersExactly_of_values (operandValue_int v) hqv⟩
    · rcases hstop with hstop | hstop
      · exact qopD_of_left_stop (operandValue_of_dec_logRange ho hstop)
      · exact qopD_of_right_logRange (operandValue_of_dec_logRange hr hstop)
    · exact qopD_of_left_stop (operandValue_of_dec_logRange ho hstop)
    · exact qopD_of_right_stop (operandValue_int v) (operandValue_of_dec_logRange hr hstop)
  case policies =>
    have hfits := isInt32_of_qopD hy
    refine ⟨hfits, ?_⟩
    rw [qopQ_of_ok hy, out_of_outputs ho, word_respond_enc hfits]

/-- R194: on the exact round-trip range the code word of an integer stands for the integer. -/
theorem operandValue_of_roundTrip {s : State} {a : Int} {o : OutPorts} (ha : IsInt32 a) (hback : RoundTripGives s a a)
    (ho : outputs (.enc a) s = some o) : operandValue (.word o.word) = .ok a := by
  rw [out_of_outputs ho, word_respond_enc ha, operandValue_word_of_inRange (encodeInt_log_bounds ha),
    (roundTripGives_iff ha s a).1 hback]

/-- Settles O49: both operands decode to the integers they were encoded from. -/
theorem macrosAreExactOnTheExactRange : Obligations.MacrosAreExactOnTheExactRange := by
  intro s op a b o p ha hb hbacka hbackb ho hp
  have hexact : AnswersExactly op (.word o.word) (.word p.word) a b :=
    answersExactly_of_values (operandValue_of_roundTrip ha hbacka ho) (operandValue_of_roundTrip hb hbackb hp)
  obtain ⟨hfit, hwide⟩ := hexact
  refine ⟨⟨hfit, hwide⟩, fun q hfits hq => ?_, fun h => qopQ_of_error (hwide h)⟩
  rw [qopQ_of_ok (hfit hfits), out_of_outputs hq, word_respond_enc hfits]

end Sys2Proof.Machine
end
